-- ==== Sys2Proof/Word.lean ====
section
/-! DEFINITION. The word types of the block and the entropy-coding variant. -/

namespace Sys2Proof

/-- A register or residual-RAM entry: 32 bits (spec/10_state.md R32, R48). -/
abbrev Word := BitVec 32

/-- A 64-bit quantity read as two registers (R35, R41). -/
abbrev Word64 := BitVec 64

/-- The two variants of EntropyCodingMethod (R4, R43): 4-bit parameters (Rice) or 5-bit parameters (Rice2). -/
inductive Variant where
  | rice
  | rice2
deriving DecidableEq, Repr

end Sys2Proof
end

