-- ==== Sys2Proof/Config.lean ====
section
/-! DEFINITION. The parameters of the model (spec/00_scope.md R9, spec/10_state.md R31) and the free values
(spec/93_implementation_defined.md, treatment `any value`). -/

namespace Sys2Proof

/-- The parameters R31 names, plain data fixed at launch: no command and no reset writes them. A statement about every
state is a statement about every value of them. -/
structure Config where
  /-- `CANON_BLOCK_SIZES` (R9, R142, U14). -/
  canonBlockSizes     : List Nat
  /-- `SUBSET_MAX_BS_HIGH_RATE` (R9, R142, U15). -/
  subsetMaxBsHighRate : Nat
  /-- `IN_BITS`, the collaborator's input stream, first bit first (R31, R80, U16). -/
  inBits              : List Bool
deriving DecidableEq, Repr

namespace Config

/-- The defaults R9 shows; the input stream has no default in the spec and is empty here (DESIGN CHOICE, log entry 5). -/
def standard : Config where
  canonBlockSizes     := [192, 256, 512, 576, 1024, 1152, 2048, 2304, 4096, 4608, 8192, 16384, 32768]
  subsetMaxBsHighRate := 65535
  inBits              := []

/-- Free value of RES[i], drawn at draw number `n` (items U2 and U3): arguments `n`, `i`. No body, so nothing can
prove a value of it (log entry 4). -/
opaque resDraw : Nat → Nat → BitVec 32

/-- Free value of PARAM[i], drawn at draw number `n` (items U1 and U3). -/
opaque paramDraw : Nat → Nat → BitVec 5

/-- Free value of RAW[i], drawn at draw number `n` (items U1 and U3). -/
opaque rawDraw : Nat → Nat → BitVec 5

/-- Free offset that places IN_POS after a failed read, drawn at draw number `n` (item U4). -/
opaque posDraw : Nat → Nat

end Config

end Sys2Proof
end

