-- ==== Sys2Proof/Syntax.lean ====
section
/-! DEFINITION. The commands: one constructor per row of spec/opcode_table.json (spec/30_encoding.md R102). -/

namespace Sys2Proof

/-- A command. Its fields are exactly the flags its row admits (R102): `s` Subset regime or strict Subset, `v` the
variant, `z` zero rate allowed. Operands are not in the word: each command reads its ARG registers (R103). A flag that
a row does not admit has no field, so every term of the type is well formed. -/
inductive Instr where
  | nop
  | valBlockSize (s : Bool)
  | valChannels
  | valBps
  | valSampleRate (z : Bool)
  | valLpcOrder (s : Bool)
  | valPartOrder (s : Bool)
  | ensureCapacity
  | setHeader (v : Variant)
  | setPartition
  | getPartition
  | encodeSection (s : Bool) (v : Variant)
  | decodeSection (s : Bool) (v : Variant)
  | siLoad
  | streamReset
  | frameBegin
  | fhvValidate (z : Bool)
  | subsetCheck
deriving DecidableEq, Repr

end Sys2Proof
end

