-- ==== Sys2Proof/WellFormed.lean ====
section
/-! DEFINITION. Which command words are legal (spec/30_encoding.md R104, R105), said without the decoder, and which
launch parameters are legal (spec/20_memory.md R80). -/

namespace Sys2Proof

namespace CommandWord

/-- OP, bits [7:0] (R100). -/
def op (w : Word) : Nat := (w.extractLsb' 0 8).toNat

/-- The opcodes of R102; every other one is reserved (R105). -/
def opcodes : List Nat :=
  [0x00, 0x01, 0x02, 0x03, 0x04, 0x05, 0x06] ++ [0x10, 0x11, 0x12, 0x13] ++ [0x20, 0x21] ++
  [0x30, 0x31, 0x32, 0x33] ++ [0x40]

/-- The opcodes whose row admits S (R102). -/
def admitS : List Nat := [0x01, 0x05, 0x06, 0x20, 0x21]

/-- The opcodes whose row admits V (R102). -/
def admitV : List Nat := [0x11, 0x20, 0x21]

/-- The opcodes whose row admits Z (R102). -/
def admitZ : List Nat := [0x04, 0x33]

/-- The word's opcode is one of R102. -/
def opcodeListed (w : Word) : Bool := opcodes.contains (op w)

/-- Bits [31:11] are 0 (R100). -/
def reservedZero (w : Word) : Bool := w.extractLsb' 11 21 == 0

/-- No flag is 1 that the word's row does not admit (R104). -/
def flagsAdmitted (w : Word) : Bool :=
  (!w.getLsbD 8 || admitS.contains (op w)) && (!w.getLsbD 9 || admitV.contains (op w)) &&
  (!w.getLsbD 10 || admitZ.contains (op w))

/-- The word is a command: not illegal by R104. -/
def wellFormed (w : Word) : Bool := opcodeListed w && reservedZero w && flagsAdmitted w

end CommandWord

/-- The input stream is at most 2^64 - 1 bits long (R80). -/
def Config.wellFormed (c : Config) : Bool := decide (c.inBits.length < 2 ^ 64)

end Sys2Proof
end

