-- ==== Sys2Proof/Decode.lean ====
section
/-! DEFINITION. The decoder of command words and the encoder (spec/30_encoding.md R100 to R106). -/

namespace Sys2Proof

/-- Why a word is illegal (R104). The block reports one code for the three, IllegalCommand; the name is for the reader. -/
inductive DecodeReject where
  | reservedOpcode
  | reservedBits
  | flagNotAdmitted
deriving DecidableEq, Repr

/-- One row of spec/opcode_table.json: a word `w` selects it when `w &&& mask = pattern`, and the flags S, V, Z of the
word (bits 8, 9, 10) make the command. -/
structure OpcodeRow where
  mask    : Word
  pattern : Word
  make    : Bool → Bool → Bool → Instr

/-- The V flag's variant (R100). -/
def variantOfFlag (v : Bool) : Variant := if v then .rice2 else .rice

/-- A variant's V flag. -/
def Variant.flag : Variant → Bool
  | .rice  => false
  | .rice2 => true

/-- The FormatLimits and NOP rows (R102). -/
def limitRows : List OpcodeRow :=
  [ ⟨0xFFFFFFFF, 0x00000000, fun _ _ _ => .nop⟩,
    ⟨0xFFFFFEFF, 0x00000001, fun s _ _ => .valBlockSize s⟩,
    ⟨0xFFFFFFFF, 0x00000002, fun _ _ _ => .valChannels⟩,
    ⟨0xFFFFFFFF, 0x00000003, fun _ _ _ => .valBps⟩,
    ⟨0xFFFFFBFF, 0x00000004, fun _ _ z => .valSampleRate z⟩,
    ⟨0xFFFFFEFF, 0x00000005, fun s _ _ => .valLpcOrder s⟩,
    ⟨0xFFFFFEFF, 0x00000006, fun s _ _ => .valPartOrder s⟩ ]

/-- The contents and codec rows (R102). -/
def codecRows : List OpcodeRow :=
  [ ⟨0xFFFFFFFF, 0x00000010, fun _ _ _ => .ensureCapacity⟩,
    ⟨0xFFFFFDFF, 0x00000011, fun _ v _ => .setHeader (variantOfFlag v)⟩,
    ⟨0xFFFFFFFF, 0x00000012, fun _ _ _ => .setPartition⟩,
    ⟨0xFFFFFFFF, 0x00000013, fun _ _ _ => .getPartition⟩,
    ⟨0xFFFFFCFF, 0x00000020, fun s v _ => .encodeSection s (variantOfFlag v)⟩,
    ⟨0xFFFFFCFF, 0x00000021, fun s v _ => .decodeSection s (variantOfFlag v)⟩ ]

/-- The stream, frame and Subset rows (R102). -/
def streamRows : List OpcodeRow :=
  [ ⟨0xFFFFFFFF, 0x00000030, fun _ _ _ => .siLoad⟩,
    ⟨0xFFFFFFFF, 0x00000031, fun _ _ _ => .streamReset⟩,
    ⟨0xFFFFFFFF, 0x00000032, fun _ _ _ => .frameBegin⟩,
    ⟨0xFFFFFBFF, 0x00000033, fun _ _ z => .fhvValidate z⟩,
    ⟨0xFFFFFFFF, 0x00000040, fun _ _ _ => .subsetCheck⟩ ]

/-- The whole opcode map (R102). -/
def opcodeRows : List OpcodeRow := limitRows ++ codecRows ++ streamRows

/-- The word selects the row. -/
def OpcodeRow.selects (r : OpcodeRow) (w : Word) : Bool := w &&& r.mask == r.pattern

/-- Names the reason no row is selected (R104). -/
def rejectReason (w : Word) : DecodeReject :=
  if !CommandWord.opcodeListed w then .reservedOpcode
  else if !CommandWord.reservedZero w then .reservedBits
  else .flagNotAdmitted

/-- The decoder, total on words: the command of the row the word selects, or the reason it is illegal (R102, R104). -/
def decode (w : Word) : Except DecodeReject Instr :=
  match opcodeRows.find? (fun r => r.selects w) with
  | some r => .ok (r.make (w.getLsbD 8) (w.getLsbD 9) (w.getLsbD 10))
  | none   => .error (rejectReason w)

/-- A command word from its fields: [31:11] zero, Z, V, S, OP (R100). -/
def commandWord (op : BitVec 8) (s v z : Bool) : Word :=
  0#21 ++ BitVec.ofBool z ++ BitVec.ofBool v ++ BitVec.ofBool s ++ op

/-- The encoder: the word of a command, from R100 and the opcode column of R102. -/
def encode : Instr → Word
  | .nop               => commandWord 0x00 false false false
  | .valBlockSize s    => commandWord 0x01 s false false
  | .valChannels       => commandWord 0x02 false false false
  | .valBps            => commandWord 0x03 false false false
  | .valSampleRate z   => commandWord 0x04 false false z
  | .valLpcOrder s     => commandWord 0x05 s false false
  | .valPartOrder s    => commandWord 0x06 s false false
  | .ensureCapacity    => commandWord 0x10 false false false
  | .setHeader v       => commandWord 0x11 false v.flag false
  | .setPartition      => commandWord 0x12 false false false
  | .getPartition      => commandWord 0x13 false false false
  | .encodeSection s v => commandWord 0x20 s v.flag false
  | .decodeSection s v => commandWord 0x21 s v.flag false
  | .siLoad            => commandWord 0x30 false false false
  | .streamReset       => commandWord 0x31 false false false
  | .frameBegin        => commandWord 0x32 false false false
  | .fhvValidate z     => commandWord 0x33 false false z
  | .subsetCheck       => commandWord 0x40 false false false

/-- The word of `nbits` bits that an opcode-table word `w` stands for. A command is one 32-bit transfer (R100, R106), so
bit i of the table's word is bit i of the word written to CMD, and the bits above `nbits` are 0. -/
def tableWord (nbits w : Nat) : Word := BitVec.ofNat 32 (w % 2 ^ nbits)

/-- What the decoder reads from a table row's word. -/
def decodeTableWord (nbits w : Nat) : Option Instr := (decode (tableWord nbits w)).toOption

end Sys2Proof
end

