-- ==== Sys2Proof/Machine/State.lean ====
section
/-! DEFINITION. The state of the block, of its bus and of what the host still has to do, as plain data
(spec/10_state.md). -/

namespace Sys2Proof.Machine

/-- Why the bus answers an access with an error (spec/20_memory.md R73). Raised by a host access, never by a command.
R73 has the access change no state of the block and the fault be recorded, so the step goes on: the fault stands in
`State.reply`, and no step ends in one (safe: nothing is claimed that the bus error would make false). -/
inductive Fault where
  /-- An access that is not 32 bits wide (R71). Raised by a host access; safe. -/
  | accessWidth
  /-- An offset that is no multiple of 4 (R71). Raised by a host access; safe. -/
  | misaligned
  /-- A reserved offset (R73). Raised by a host access; safe. -/
  | reservedOffset
  /-- A read of CMD (R73). Raised by a host read; safe. -/
  | readOfCmd
  /-- A write to a read-only register (R73). Raised by a host write; safe. -/
  | writeToReadOnly
deriving DecidableEq, Repr

/-- Why a command has no meaning here. -/
inductive Refusal where
  /-- Raised by an arm of `exec` whose command is not modelled; no arm raises it in this model (safe). -/
  | notModelled (mnemonic : String)
deriving DecidableEq, Repr

/-- The status codes (spec/60_exceptions.md R300). The codes 8 to 15 are never written, so they have no constructor. -/
inductive StatusCode where
  | ok
  | outOfRange
  | invalidPartitionGeometry
  | parameterOutOfRange
  | truncatedStream
  | indexOutOfRange
  | illegalCommand
  | illegalState
deriving DecidableEq, Repr

/-- The fields of ADVISORY (R36); its other bits read 0. -/
structure Advisory where
  bpsGt24      : Bool
  partOrderGt8 : Bool
deriving DecidableEq, Repr

/-- The StreamInfo registers (R41). -/
structure StreamInfo where
  rate     : Word
  channels : Word
  bps      : Word
  minBs    : Word
  maxBs    : Word
  total    : Word64
deriving DecidableEq, Repr

/-- The FrameHeaderValidator state (R50). The value 3 is never held, so it has no constructor. -/
inductive FhvState where
  | unvalidated
  | validated
  | rejected
deriving DecidableEq, Repr

/-- The width of a host access (R71). -/
inductive AccessWidth where
  | w8
  | w16
  | w32
  | w64
deriving DecidableEq, Repr

/-- One host access at a byte offset of the 20-bit window (R70). -/
inductive BusAccess where
  | read  (offset : BitVec 20) (width : AccessWidth)
  | write (offset : BitVec 20) (width : AccessWidth) (value : Word)
deriving DecidableEq, Repr

/-- What reaches the block from outside: a host access (R30), or the platform asserting or releasing the reset input
(R340). -/
inductive HostEvent where
  | access (a : BusAccess)
  | assertReset
  | releaseReset
deriving DecidableEq, Repr

/-- The bus's answer to the last event: none (no event yet, a reset event, or an access while reset is asserted, R340),
the data of a read, the completion of a write, or a bus error with its recorded fault (R73). -/
inductive BusReply where
  | none
  | data (v : Word)
  | written
  | error (f : Fault)
deriving DecidableEq, Repr

/-- A memory of `w`-bit entries: the entries written, each with its index, indices strictly rising. What an unlisted
index reads as is `Memory.read`'s: the free value drawn at the last reset (log entries 3 and 4). -/
abbrev Memory (w : Nat) := List (Nat × BitVec w)

/-- The state (spec/10_state.md R34 to R50), then the model's own fields: the launch parameters, the draw counters, the
bus's last reply and the host's remaining events. -/
structure State where
  /-- STATUS.CODE (R34). -/
  code      : StatusCode
  /-- STATUS.FATAL (R34). -/
  fatal     : Bool
  /-- RESULT_HI:RESULT (R35). -/
  result    : Word64
  /-- ADVISORY (R36). -/
  advisory  : Advisory
  /-- IN_POS, the number of bits of IN_BITS consumed (R38). -/
  inPos     : Nat
  /-- OUT_BITS, first bit first (R39, R82); OUT_LEN is its length. -/
  outBits   : List Bool
  /-- ARG0 to ARG7 (R40). -/
  args      : Vector Word 8
  /-- The StreamInfo registers (R41). -/
  si        : StreamInfo
  /-- SI_VALID (R41). -/
  siValid   : Bool
  /-- PR_ORDER (R43). -/
  prOrder   : BitVec 4
  /-- PR_VARIANT (R43). -/
  prVariant : Variant
  /-- CAP_ORDER (R44). -/
  capOrder  : BitVec 4
  /-- PARAM[0..32767] (R45, R46). -/
  param     : Memory 5
  /-- RAW[0..32767] (R45, R46). -/
  raw       : Memory 5
  /-- RES[0..65535] (R48). -/
  res       : Memory 32
  /-- CVALID (R49). -/
  cvalid    : Bool
  /-- FHV_STATE (R50). -/
  fhv       : FhvState
  /-- The reset input: the platform holds it asserted (R340). -/
  inReset   : Bool
  /-- The parameters of the model (R31). -/
  cfg       : Config
  /-- Model's own: the draw number of the last reset's free values (log entry 4). -/
  bootDraw  : Nat
  /-- Model's own: the next draw number (log entry 4). -/
  draws     : Nat
  /-- Model's own: the bus's answer to the last event (log entry 2). -/
  reply     : BusReply
  /-- Model's own: the events still to come, the next first (log entry 1). -/
  pending   : List HostEvent
deriving DecidableEq, Repr

/-- The StreamInfo registers all 0 (R54, R253). -/
def StreamInfo.zero : StreamInfo := ⟨0, 0, 0, 0, 0, 0⟩

/-- No advisory finding (R36). -/
def Advisory.clear : Advisory := ⟨false, false⟩

/-- The state after reset, the reset input released (R54, R340). The memories list nothing: every entry is unspecified
(R344). -/
def State.reset : State where
  code      := .ok
  fatal     := false
  result    := 0
  advisory  := .clear
  inPos     := 0
  outBits   := []
  args      := Vector.replicate 8 0
  si        := .zero
  siValid   := false
  prOrder   := 0
  prVariant := .rice
  capOrder  := 0
  param     := []
  raw       := []
  res       := []
  cvalid    := false
  fhv       := .unvalidated
  inReset   := false
  cfg       := .standard
  bootDraw  := 0
  draws     := 1
  reply     := .none
  pending   := []

end Sys2Proof.Machine
end

