-- ==== Sys2Proof/Machine/Ops.lean ====
section
/-! DEFINITION. The shared operations: entries of a memory, the bit streams, the completion of a command (OK or
failing), the capacity rule, the free draws of a failed DECODE, the bus's reply and the platform's reset. -/

namespace Sys2Proof.Machine

/-! ### Memories -/

namespace Memory

variable {w : Nat}

/-- The value last written at an index, if one was. -/
def find : Memory w → Nat → Option (BitVec w)
  | [], _ => none
  | (k, v) :: m, i => if k = i then some v else find m i

/-- The value of an entry: the one last written, else the free value `d i` (R46, R48). -/
def read (d : Nat → BitVec w) (m : Memory w) (i : Nat) : BitVec w := (m.find i).getD (d i)

/-- A run of entries: `base`, `base + 1`, … hold `vs` in order. -/
def cells (base : Nat) : List (BitVec w) → Memory w
  | [] => []
  | v :: vs => (base, v) :: cells (base + 1) vs

/-- Writes `vs` at the indices `base`, `base + 1`, … and nothing else. -/
def writeRun (base : Nat) (vs : List (BitVec w)) (m : Memory w) : Memory w :=
  m.filter (fun c => c.1 < base) ++ cells base vs ++ m.filter (fun c => base + vs.length ≤ c.1)

/-- Writes one entry. -/
def write (i : Nat) (v : BitVec w) (m : Memory w) : Memory w := writeRun i [v] m

/-- The canonical form of a memory of `n` entries: indices strictly rising and below `n`. An unlisted entry reads as a
free value, which no listed value equals by any proof, so no entry is left out for its value (log entry 3). -/
abbrev wf (n : Nat) (m : Memory w) : Prop :=
  m.Pairwise (fun a b => a.1 < b.1) ∧ ∀ c ∈ m, c.1 < n

end Memory

/-- PARAM[i] (R46). -/
def State.readParam (s : State) (i : Nat) : BitVec 5 := Memory.read (Config.paramDraw s.bootDraw) s.param i

/-- RAW[i] (R46). -/
def State.readRaw (s : State) (i : Nat) : BitVec 5 := Memory.read (Config.rawDraw s.bootDraw) s.raw i

/-- RES[i] (R48). -/
def State.readRes (s : State) (i : Nat) : Word := Memory.read (Config.resDraw s.bootDraw) s.res i

/-- RES[first .. first + n - 1] in order (R91). -/
def State.readResRun (s : State) (first n : Nat) : List Word := (List.range' first n).map s.readRes

/-! ### Bit sequences and streams (R13, R80 to R85) -/

/-- `bits_n(v)`: the n low bits of `v`, most significant first (R13). -/
def bitsOf : Nat → Nat → List Bool
  | 0, _ => []
  | n + 1, v => v.testBit n :: bitsOf n v

/-- Why a read of the input stream fails: no bits left (R80), or a quotient whose value cannot fit 32 bits (R234). -/
inductive ReadFail where
  | eof
  | overflow
deriving DecidableEq, Repr

/-- The reader of the input stream: the cursor and the bits from it on (R80). -/
structure Reader where
  pos  : Nat
  rest : List Bool
deriving DecidableEq, Repr

/-- The reader at IN_POS (R38, R80). -/
def State.reader (s : State) : Reader := ⟨s.inPos, s.cfg.inBits.drop s.inPos⟩

/-- The next `n` bits as an unsigned number, most significant first, above the bits `acc` already read. -/
def takeBits : Nat → Nat → List Bool → Except ReadFail (Nat × List Bool)
  | 0, acc, bs => .ok (acc, bs)
  | _ + 1, _, [] => .error .eof
  | n + 1, acc, b :: bs => takeBits n (2 * acc + b.toNat) bs

/-- `ReadBits(n)`, or end of stream (R80). A width of 0 reads nothing (R81). -/
def readBits (n : Nat) (rd : Reader) : Except ReadFail (Nat × Reader) :=
  match takeBits n 0 rd.rest with
  | .ok (v, rest) => .ok (v, ⟨rd.pos + n, rest⟩)
  | .error e => .error e

/-- Reads `n` items one after the other, the first failure ending it. -/
def readMany {α : Type} (item : Reader → Except ReadFail (α × Reader)) : Nat → Reader → Except ReadFail (List α × Reader)
  | 0, rd => .ok ([], rd)
  | n + 1, rd =>
    match item rd with
    | .error e => .error e
    | .ok (a, rd₁) =>
      match readMany item n rd₁ with
      | .error e => .error e
      | .ok (as, rd₂) => .ok (a :: as, rd₂)

/-- OUT_LEN, the length of the output stream (R39, R82). -/
def State.outLen (s : State) : Nat := s.outBits.length

/-- `WriteBits`: appends to the output stream (R82). -/
def appendBits (bits : List Bool) (s : State) : State := { s with outBits := s.outBits ++ bits }

/-- Byte `j` of a stream packed by the collaborator: stream bit i is bit 7 - (i mod 8) of byte i / 8 (R83). The bits past
the end of the last byte are not given by the spec and read 0 here (DESIGN CHOICE, log entry 7); no command uses this. -/
def packedByte (bits : List Bool) (j : Nat) : BitVec 8 :=
  (List.range 8).foldl (fun acc k => (acc <<< 1) ||| (BitVec.ofBool (bits.getD (8 * j + k) false)).setWidth 8) 0

/-- Byte `j` (0 to 3) of a register as a bus bridge presents it, little-endian (R72); no command uses this. -/
def bridgeByte (v : Word) (j : Nat) : BitVec 8 := v.extractLsb' (8 * j) 8

/-! ### Completion of a command (R18, R34 to R36, R302, R303) -/

/-- Ends a command with a status code, a result and its advisory findings: STATUS.CODE, RESULT and ADVISORY are written,
and IndexOutOfRange sets the sticky FATAL (R34 to R36, R300, R310). -/
def complete (c : StatusCode) (result : Word64) (adv : Advisory) (s : State) : State :=
  { s with code := c, fatal := s.fatal || c == .indexOutOfRange, result := result, advisory := adv }

/-- `finish(result, adv)`: completion with OK (R18). -/
def finish (result : Word64) (adv : Advisory) (s : State) : State := complete .ok result adv s

/-- `raise E`: the one way a command reports an error. There is no trap entry (R312): no state is saved, no mode changes
and control goes nowhere, and for the same reason there is no return from one (R313). RESULT is 0 unless the
command's rule says otherwise (R302). -/
def raise (c : StatusCode) (result : Word64) (adv : Advisory) (s : State) : State := complete c result adv s

/-- The completion of an illegal command word: IllegalCommand, and nothing else changes (R104). -/
def illegalCommand (s : State) : State := raise .illegalCommand 0 .clear s

/-! ### Header and capacity (R43, R44, R170) -/

/-- `ensure(o)`: CAP_ORDER <- max(CAP_ORDER, o) (R170). -/
def ensure (o : Nat) (s : State) : State := { s with capOrder := BitVec.ofNat 4 (max s.capOrder.toNat o) }

/-- ensure(o); PR_ORDER <- o; PR_VARIANT <- V (R175, R220, R230). -/
def writeHeader (o : Nat) (v : Variant) (s : State) : State :=
  { ensure o s with prOrder := BitVec.ofNat 4 o, prVariant := v }

/-! ### Free draws of a failed DECODE (R80, R236, items U3 and U4) -/

/-- IN_POS takes a free value from `start` to len(IN_BITS) (R80, U4). -/
def drawInPos (start : Nat) (s : State) : State :=
  { s with inPos := start + Config.posDraw s.draws % (s.cfg.inBits.length - start + 1), draws := s.draws + 1 }

/-- PARAM[i] and RAW[i] for i < `np` and RES[j] for j < `nr` take free values (R236, U3). -/
def drawContents (np nr : Nat) (s : State) : State :=
  { s with param := Memory.writeRun 0 ((List.range np).map (Config.paramDraw s.draws)) s.param,
           raw   := Memory.writeRun 0 ((List.range np).map (Config.rawDraw s.draws)) s.raw,
           res   := Memory.writeRun 0 ((List.range nr).map (Config.resDraw s.draws)) s.res,
           draws := s.draws + 1 }

/-! ### The bus's reply -/

/-- The bus's reply is recorded (R73). -/
def setReply (r : BusReply) (s : State) : State := { s with reply := r }

/-! ### Reset (R340, R341, R344) -/

/-- The platform's reset: every piece of state takes its reset value (R54), with fresh free values for the memories
(R344); the launch parameters are the collaborator's and stay (R341), and the events still to come are the host's. -/
def platformReset (s : State) : State :=
  { State.reset with cfg := s.cfg, pending := s.pending, bootDraw := s.draws, draws := s.draws + 1 }

/-- The platform asserts the reset input (R340). Nothing else changes before the release; no access can see it, so that
is the model's way to say it (DESIGN CHOICE, log entry 10). -/
def assertReset (s : State) : State := setReply .none { s with inReset := true }

/-- The platform releases the reset input: every piece of state takes its reset value (R340). The release of an input
that is not asserted is no reset (DESIGN CHOICE, log entry 10). -/
def releaseReset (s : State) : State := if s.inReset then platformReset s else setReply .none s

end Sys2Proof.Machine
end

