-- ==== Sys2Proof/Machine/Control.lean ====
section
/-! DEFINITION. NOP (spec/45_control.md). -/

namespace Sys2Proof.Machine

/-- NOP: success and nothing else; FATAL stays (R290). -/
def execNop (s : State) : Host.Outcome State Fault Refusal := .next (finish 0 .clear s)

end Sys2Proof.Machine
end

