-- ==== Sys2Proof/Machine/Operands.lean ====
section
/-! DEFINITION. What a command reads as its operands: the ARG registers (spec/30_encoding.md R102, R103) and the constants of a
variant (spec/42_residual_codec.md R200). -/

namespace Sys2Proof.Machine

/-- ARG[i] as an operand: the full 32-bit unsigned value, never extended, scaled or truncated (R103, R295). -/
def State.arg (s : State) (i : Fin 8) : Nat := (s.args[i]).toNat

/-- The 64-bit operand ARG6:ARG5 of SI_LOAD (R103). -/
def State.argTotal (s : State) : Word64 := s.args[6] ++ s.args[5]

/-- How many operands the row of a command lists; they stand in ARG0 and the registers after it (R102). -/
def operandCount : Instr → Nat
  | .nop               => 0
  | .valBlockSize _    => 2
  | .valChannels       => 1
  | .valBps            => 1
  | .valSampleRate _   => 1
  | .valLpcOrder _     => 2
  | .valPartOrder _    => 1
  | .ensureCapacity    => 1
  | .setHeader _       => 1
  | .setPartition      => 3
  | .getPartition      => 1
  | .encodeSection _ _ => 3
  | .decodeSection _ _ => 2
  | .siLoad            => 7
  | .streamReset       => 0
  | .frameBegin        => 0
  | .fhvValidate _     => 4
  | .subsetCheck       => 6

/-- `pw(V)`, the width of a parameter field (R43, R200). -/
def paramWidth : Variant → Nat
  | .rice  => 4
  | .rice2 => 5

/-- `esc(V) = 2^pw(V) - 1`, the escape sentinel (R43, R200). -/
def escapeSentinel (v : Variant) : Nat := 2 ^ paramWidth v - 1

/-- `kmax(V)`, the largest Rice parameter (R200). -/
def maxParam (v : Variant) : Nat := escapeSentinel v - 1

/-- The number of partitions of the current header, 2^PR_ORDER (R45, R181). -/
def State.partitionCount (s : State) : Nat := 2 ^ s.prOrder.toNat

end Sys2Proof.Machine
end

