-- ==== Sys2Proof/Machine/Flags.lean ====
section
/-! DEFINITION. The status, advisory and result bits: how they are computed and how they stand in their registers
(spec/10_state.md R34 to R37, spec/40_format_limits.md R140). -/

namespace Sys2Proof.Machine

/-- The number of a status code (R300). -/
def StatusCode.bits : StatusCode → BitVec 4
  | .ok                       => 0
  | .outOfRange               => 1
  | .invalidPartitionGeometry => 2
  | .parameterOutOfRange      => 3
  | .truncatedStream          => 4
  | .indexOutOfRange          => 5
  | .illegalCommand           => 6
  | .illegalState             => 7

/-- The number of an FHV state (R50). -/
def FhvState.bits : FhvState → BitVec 2
  | .unvalidated => 0
  | .validated   => 1
  | .rejected    => 2

/-- PR_VARIANT as a bit (R43). -/
def variantBit : Variant → BitVec 1
  | .rice  => 0
  | .rice2 => 1

/-- STATUS: CODE [3:0], FATAL bit 8, the rest 0 (R34). -/
def State.statusReg (s : State) : Word := 0#23 ++ BitVec.ofBool s.fatal ++ 0#4 ++ s.code.bits

/-- ADVISORY: BPS_GT_24 bit 0, PART_ORDER_GT_8 bit 1, the rest 0 (R36). -/
def State.advisoryReg (s : State) : Word :=
  0#30 ++ BitVec.ofBool s.advisory.partOrderGt8 ++ BitVec.ofBool s.advisory.bpsGt24

/-- INFO: PR_ORDER [3:0], PR_VARIANT bit 4, CAP_ORDER [11:8], SI_VALID bit 12, FHV_STATE [14:13], CVALID bit 15, the
rest 0 (R37). -/
def State.infoReg (s : State) : Word :=
  0#16 ++ BitVec.ofBool s.cvalid ++ s.fhv.bits ++ BitVec.ofBool s.siValid ++ s.capOrder ++ 0#3 ++
    variantBit s.prVariant ++ s.prOrder

/-- The advisory of a command that checks a bits-per-sample operand: BPS_GT_24 alone. -/
def bpsAdvisory (b : Bool) : Advisory := ⟨b, false⟩

/-- The advisory of ENCODE and DECODE: PART_ORDER_GT_8 for an order of 9 to 15 (R36, R220, R230). -/
def orderAdvisory (o : Nat) : Advisory := ⟨false, decide (9 ≤ o ∧ o ≤ 15)⟩

/-- RESULT of a validator: bit 0 FORMAT_VIOLATION, bit 1 SUBSET_VIOLATION (R140). -/
def violationBits (fmt sub : Bool) : Word64 := BitVec.ofNat 64 ((if sub then 2 else 0) + (if fmt then 1 else 0))

/-- A mask of failing fields: bit i is 1 when the i-th check of the list passes `false` (R251, R257, R281). -/
def failMask : List Bool → Nat
  | [] => 0
  | ok :: rest => (if ok then 0 else 1) + 2 * failMask rest

/-- The completion of a validator: OutOfRange on a format violation, or on a Subset violation when S is 1; RESULT and
ADVISORY are written either way (R140). -/
def validate (fmt sub s : Bool) (adv : Advisory) (st : State) : State :=
  if fmt || (s && sub) then raise .outOfRange (violationBits fmt sub) adv st
  else finish (violationBits fmt sub) adv st

end Sys2Proof.Machine
end

