-- ==== Sys2Proof/Machine/FormatLimits.lean ====
section
/-! DEFINITION. FormatLimits: the range predicates and the six validators (spec/40_format_limits.md). -/

namespace Sys2Proof.Machine

/-! ### Predicates, true when the value is legal -/

/-- `BS_FMT` (R141). -/
def bsFmt (n : Nat) : Bool := decide (16 ≤ n ∧ n ≤ 65535)

/-- `BS_SUB`: full-format legal, canonical, and within the bound of its rate (R141, R142). -/
def bsSub (cfg : Config) (n rate : Nat) : Bool :=
  bsFmt n && cfg.canonBlockSizes.contains n && decide (rate > 48000 ∨ n ≤ 4608) &&
    decide (rate ≤ 48000 ∨ n ≤ cfg.subsetMaxBsHighRate)

/-- `CH_OK` (R143). -/
def chOk (c : Nat) : Bool := decide (1 ≤ c ∧ c ≤ 8)

/-- `BPS_OK` (R145). -/
def bpsOk (b : Nat) : Bool := decide (4 ≤ b ∧ b ≤ 32)

/-- `BPS_ADV`: legal, but above what the reference codec supports (R145, R146). -/
def bpsAdv (b : Nat) : Bool := decide (25 ≤ b ∧ b ≤ 32)

/-- `RATE_OK` (R147). -/
def rateOk (r : Nat) (z : Bool) : Bool := decide (1 ≤ r ∧ r ≤ 655350) || (decide (r = 0) && z)

/-- `LPC_FMT` (R149). -/
def lpcFmt (o : Nat) : Bool := decide (o ≤ 32)

/-- `LPC_SUB` (R149). -/
def lpcSub (o rate : Nat) : Bool := lpcFmt o && decide (rate > 48000 ∨ o ≤ 12)

/-- `PO_FMT` (R151). -/
def poFmt (o : Nat) : Bool := decide (o ≤ 15)

/-- `PO_SUB` (R151, R152). -/
def poSub (o : Nat) : Bool := decide (o ≤ 8)

/-! ### Commands -/

/-- VAL_BLOCK_SIZE (R141). -/
def execValBlockSize (sub : Bool) (s : State) : Host.Outcome State Fault Refusal :=
  .next (validate (!bsFmt (s.arg 0)) (!bsSub s.cfg (s.arg 0) (s.arg 1)) sub .clear s)

/-- VAL_CHANNELS (R143, R144). -/
def execValChannels (s : State) : Host.Outcome State Fault Refusal :=
  .next (validate (!chOk (s.arg 0)) (!chOk (s.arg 0)) false .clear s)

/-- VAL_BPS (R145, R146). -/
def execValBps (s : State) : Host.Outcome State Fault Refusal :=
  .next (validate (!bpsOk (s.arg 0)) (!bpsOk (s.arg 0)) false (bpsAdvisory (bpsAdv (s.arg 0))) s)

/-- VAL_SAMPLE_RATE (R147, R148). -/
def execValSampleRate (z : Bool) (s : State) : Host.Outcome State Fault Refusal :=
  .next (validate (!rateOk (s.arg 0) z) (!rateOk (s.arg 0) z) false .clear s)

/-- VAL_LPC_ORDER (R149). -/
def execValLpcOrder (sub : Bool) (s : State) : Host.Outcome State Fault Refusal :=
  .next (validate (!lpcFmt (s.arg 0)) (!lpcSub (s.arg 0) (s.arg 1)) sub .clear s)

/-- VAL_PART_ORDER (R151, R152). -/
def execValPartOrder (sub : Bool) (s : State) : Host.Outcome State Fault Refusal :=
  .next (validate (!poFmt (s.arg 0)) (!poSub (s.arg 0)) sub .clear s)

end Sys2Proof.Machine
end

