-- ==== Sys2Proof/Machine/ResidualCodec.lean ====
section
/-! DEFINITION. The partitioned-Rice residual codec: the functions both directions share, ENCODE and DECODE
(spec/42_residual_codec.md, spec/30_encoding.md R110 to R116). -/

namespace Sys2Proof.Machine

/-! ### Geometry (R203) -/

/-- `GEOM(bs, p, o)` (R203). -/
def geom (bs p o : Nat) : Bool := decide (bs % 2 ^ o = 0) && decide (p ≤ bs >>> o)

/-- The length of partition `i`: L - p for partition 0, L for the others (R203). -/
def partLen (bs p o i : Nat) : Nat := if i = 0 then (bs >>> o) - p else bs >>> o

/-- The first residual index of partition `i`: 0, or i * L - p (R203). -/
def partFirst (bs p o i : Nat) : Nat := if i = 0 then 0 else i * (bs >>> o) - p

/-! ### Sign fold, widths and costs (R204 to R207) -/

/-- `zigzag(r) = trunc_32((r << 1) xor (r >> 31))`, the right shift arithmetic (R204). -/
def zigzag (r : Word) : Word := (r <<< 1) ^^^ (r.sshiftRight 31)

/-- `unzigzag(u) = s32((u >> 1) xor (0 - (u and 1)))` (R205). -/
def unzigzag (u : Word) : Word := (u >>> 1) ^^^ (0 - (u &&& 1))

/-- `bitlen(a)`, the number of bits of `a` without leading zeros (R15). -/
def bitlen (a : Nat) : Nat := if a = 0 then 0 else Nat.log2 a + 1

/-- `width(r)`, the least two's-complement width that holds a residual; only 0 fits width 0 (R206). -/
def width (r : Word) : Nat :=
  if r = 0 then 0 else if r.msb then bitlen (~~~r).toNat + 1 else bitlen r.toNat + 1

/-- The raw width of a partition: the largest width of its residuals, 0 when it has none (R206). -/
def rawWidth (rs : List Word) : Nat := rs.foldl (fun acc r => max acc (width r)) 0

/-- `cost(k)`, the number of bits of the partition's Rice codes, exact (R207, R296). -/
def cost (rs : List Word) (k : Nat) : Nat := (rs.map (fun r => ((zigzag r).toNat >>> k) + 1 + k)).sum

/-- The better of `best` and `k`: `k` only if it costs strictly less, so a tie keeps the smaller (R208). -/
def cheaper (rs : List Word) (best k : Nat) : Nat := if cost rs k < cost rs best then k else best

/-- The least parameter of least cost among 0 to `kmax` (R208). -/
def bestUpTo (rs : List Word) : Nat → Nat
  | 0 => 0
  | k + 1 => cheaper rs (bestUpTo rs k) (k + 1)

/-- `kbest(rs, V)` (R208). -/
def kbest (rs : List Word) (v : Variant) : Nat := bestUpTo rs (maxParam v)

/-! ### The code of a partition (R209, R111 to R113) -/

/-- How a partition is coded: Rice with a parameter, or escaped with a raw width (R209). -/
inductive PartCode where
  | rice (k : Nat)
  | escaped (width : Nat)
deriving DecidableEq, Repr

/-- The choice: escaped exactly when W <= 31 and cost(kbest) > n * W, else Rice with kbest (R209). -/
def chooseCode (v : Variant) (rs : List Word) : PartCode :=
  if rawWidth rs ≤ 31 ∧ cost rs (kbest rs v) > rs.length * rawWidth rs then .escaped (rawWidth rs)
  else .rice (kbest rs v)

/-- The PARAM entry of a partition (R220, R230). -/
def PartCode.param (v : Variant) : PartCode → BitVec 5
  | .rice k    => BitVec.ofNat 5 k
  | .escaped _ => BitVec.ofNat 5 (escapeSentinel v)

/-- The RAW entry of a partition (R220, R230). -/
def PartCode.raw : PartCode → BitVec 5
  | .rice _    => 0
  | .escaped w => BitVec.ofNat 5 w

/-- `rice_k(r)`: the quotient in unary, a 1, the k low bits (R112). -/
def riceBits (k : Nat) (r : Word) : List Bool :=
  List.replicate ((zigzag r).toNat >>> k) false ++ true :: bitsOf k ((zigzag r).toNat % 2 ^ k)

/-- `raw_W(r) = bits_W(trunc_W(r))` (R113). -/
def rawBits (w : Nat) (r : Word) : List Bool := bitsOf w (r.toNat % 2 ^ w)

/-- `part(P)`, the bits of one partition (R111). -/
def partBits (v : Variant) : PartCode → List Word → List Bool
  | .rice k, rs    => bitsOf (paramWidth v) k ++ (rs.map (riceBits k)).flatten
  | .escaped w, rs => bitsOf (paramWidth v) (escapeSentinel v) ++ bitsOf 5 w ++ (rs.map (rawBits w)).flatten

/-- A partition of a section: its code and its residuals. -/
abbrev Part := PartCode × List Word

/-- The bits of a whole section: the order, then the partitions in order (R111). -/
def sectionBits (v : Variant) (o : Nat) (parts : List Part) : List Bool :=
  bitsOf 4 o ++ (parts.map (fun p => partBits v p.1 p.2)).flatten

/-- The partitions ENCODE makes of the residual RAM (R220). -/
def State.encodeParts (s : State) (v : Variant) (bs p o : Nat) : List Part :=
  (List.range (2 ^ o)).map fun i =>
    let rs := s.readResRun (partFirst bs p o i) (partLen bs p o i)
    (chooseCode v rs, rs)

/-- PARAM[i] and RAW[i] <- the code of partition i, from 0 on (R220, R230). -/
def writeCodes (v : Variant) (parts : List Part) (s : State) : State :=
  { s with param := Memory.writeRun 0 (parts.map (fun p => p.1.param v)) s.param,
           raw   := Memory.writeRun 0 (parts.map (fun p => p.1.raw)) s.raw }

/-- RES[0], RES[1], … <- the residuals of the partitions in order (R230). -/
def writeResiduals (parts : List Part) (s : State) : State :=
  { s with res := Memory.writeRun 0 (parts.map (fun p => p.2)).flatten s.res }

/-- CVALID <- b (R49). -/
def setCvalid (b : Bool) (s : State) : State := { s with cvalid := b }

/-- A failing codec command: CVALID <- 0, RESULT 0, the code and the advisory (R221, R236). -/
def codecFail (c : StatusCode) (adv : Advisory) (s : State) : State := raise c 0 adv (setCvalid false s)

/-! ### ENCODE -/

/-- ENCODE once its checks have passed (R220, R222). -/
def encodeCore (v : Variant) (bs p o : Nat) (s : State) : State :=
  let parts := s.encodeParts v bs p o
  let bits := sectionBits v o parts
  finish (BitVec.ofNat 64 bits.length) (orderAdvisory o)
    (setCvalid true (appendBits bits (writeCodes v parts (writeHeader o v s))))

/-- ENCODE (R220 to R224): its checks in order, each before any effect (R221). -/
def execEncodeSection (sub : Bool) (v : Variant) (s : State) : Host.Outcome State Fault Refusal :=
  let bs := s.arg 0
  let p := s.arg 1
  let o := s.arg 2
  let adv := orderAdvisory o
  if o > 15 then .next (codecFail .outOfRange adv s)
  else if sub && decide (o > 8) then .next (codecFail .outOfRange adv s)
  else if bs > 65535 then .next (codecFail .outOfRange adv s)
  else if !geom bs p o then .next (codecFail .invalidPartitionGeometry adv s)
  else .next (encodeCore v bs p o s)

/-! ### DECODE -/

/-- The unary part of a Rice code: counts 0 bits up to the terminating 1, failing as soon as the count passes `limit`
(R234). -/
def unaryRun (limit : Nat) : Nat → List Bool → Except ReadFail (Nat × List Bool)
  | _, [] => .error .eof
  | q, true :: bs => .ok (q, bs)
  | q, false :: bs => if q + 1 > limit then .error .overflow else unaryRun limit (q + 1) bs

/-- `rice_read(k)` (R234). -/
def riceRead (k : Nat) (rd : Reader) : Except ReadFail (Word × Reader) :=
  match unaryRun ((2 ^ 32 - 1) >>> k) 0 rd.rest with
  | .error e => .error e
  | .ok (q, rest) =>
    match readBits k ⟨rd.pos + q + 1, rest⟩ with
    | .error e => .error e
    | .ok (rem, rd₁) => .ok (unzigzag (BitVec.ofNat 32 (q * 2 ^ k + rem)), rd₁)

/-- `sext_32(ReadBits(W), W)`, and 0 without a read for W = 0 (R113, R230, R233). -/
def rawRead (w : Nat) (rd : Reader) : Except ReadFail (Word × Reader) :=
  match readBits w rd with
  | .error e => .error e
  | .ok (f, rd₁) => .ok ((BitVec.ofNat w f).signExtend 32, rd₁)

/-- Reads the code of a partition: the parameter field, and the raw width after the sentinel (R116, R233). -/
def readCode (v : Variant) (rd : Reader) : Except ReadFail (PartCode × Reader) :=
  match readBits (paramWidth v) rd with
  | .error e => .error e
  | .ok (f, rd₁) =>
    if f = escapeSentinel v then
      match readBits 5 rd₁ with
      | .error e => .error e
      | .ok (w, rd₂) => .ok (.escaped w, rd₂)
    else .ok (.rice f, rd₁)

/-- Reads one residual of a partition coded so. -/
def residualRead : PartCode → Reader → Except ReadFail (Word × Reader)
  | .rice k    => riceRead k
  | .escaped w => rawRead w

/-- Reads one partition of `len` residuals (R230). -/
def readPart (v : Variant) (len : Nat) (rd : Reader) : Except ReadFail (Part × Reader) :=
  match readCode v rd with
  | .error e => .error e
  | .ok (c, rd₁) =>
    match readMany (residualRead c) len rd₁ with
    | .error e => .error e
    | .ok (rs, rd₂) => .ok ((c, rs), rd₂)

/-- Reads partitions of the given lengths, one after the other (R230). -/
def readParts (v : Variant) : List Nat → Reader → Except ReadFail (List Part × Reader)
  | [], rd => .ok ([], rd)
  | len :: lens, rd =>
    match readPart v len rd with
    | .error e => .error e
    | .ok (p, rd₁) =>
      match readParts v lens rd₁ with
      | .error e => .error e
      | .ok (ps, rd₂) => .ok (p :: ps, rd₂)

/-- The lengths of the 2^o partitions (R203). -/
def partLens (bs p o : Nat) : List Nat := (List.range (2 ^ o)).map (partLen bs p o)

/-- The status code of a failed read (R230, R234). -/
def ReadFail.code : ReadFail → StatusCode
  | .eof      => .truncatedStream
  | .overflow => .parameterOutOfRange

/-- DECODE once the order is read and the checks have passed: `start` is IN_POS before the command, `rd` the reader after
the order field. A failure inside the partitions leaves free values (R236). -/
def decodeCore (v : Variant) (bs p o start : Nat) (rd : Reader) (s : State) : State :=
  let s₁ := writeHeader o v s
  match readParts v (partLens bs p o) rd with
  | .error e =>
    codecFail e.code (orderAdvisory o) (drawContents (2 ^ o) (bs - p) (drawInPos start s₁))
  | .ok (parts, rd₁) =>
    finish (BitVec.ofNat 64 (rd₁.pos - start)) (orderAdvisory o)
      (setCvalid true { writeResiduals parts (writeCodes v parts s₁) with inPos := rd₁.pos })

/-- DECODE after the order field `o` is read: the strict-Subset and geometry checks leave IN_POS behind the field
(R230, R236). -/
def decodeOrdered (sub : Bool) (v : Variant) (o start : Nat) (rd : Reader) (s : State) : State :=
  let bs := s.arg 0
  let p := s.arg 1
  let adv := orderAdvisory o
  if sub && decide (o > 8) then codecFail .outOfRange adv { s with inPos := rd.pos }
  else if !geom bs p o then codecFail .invalidPartitionGeometry adv { s with inPos := rd.pos }
  else decodeCore v bs p o start rd s

/-- DECODE (R230 to R240), its failures in the order of R235. -/
def execDecodeSection (sub : Bool) (v : Variant) (s : State) : Host.Outcome State Fault Refusal :=
  if s.fhv = .rejected then .next (raise .illegalState 0 .clear s)
  else if s.arg 0 > 65535 then .next (codecFail .outOfRange .clear s)
  else
    match readBits 4 s.reader with
    | .error e => .next (codecFail e.code .clear (drawInPos s.inPos s))
    | .ok (o, rd) => .next (decodeOrdered sub v o s.inPos rd s)

end Sys2Proof.Machine
end

