-- ==== Sys2Proof/Machine/RiceContents.lean ====
section
/-! DEFINITION. PartitionedRiceContents: capacity, header and bounded access to the entries (spec/41_rice_contents.md). -/

namespace Sys2Proof.Machine

/-- CAP_ORDER as a 64-bit result (R171, R175). -/
def State.capResult (s : State) : Word64 := s.capOrder.setWidth 64

/-- ENSURE_CAPACITY (R171, R172). -/
def execEnsureCapacity (s : State) : Host.Outcome State Fault Refusal :=
  if s.arg 0 > 15 then .next (raise .outOfRange 0 .clear s)
  else
    let s₁ := ensure (s.arg 0) s
    .next (finish s₁.capResult .clear s₁)

/-- SET_HEADER (R175, R176). -/
def execSetHeader (v : Variant) (s : State) : Host.Outcome State Fault Refusal :=
  if s.arg 0 > 15 then .next (raise .outOfRange 0 .clear s)
  else
    let s₁ := writeHeader (s.arg 0) v s
    .next (finish s₁.capResult .clear s₁)

/-- PARAM[i] <- prm, RAW[i] <- raw (R180). -/
def writePartition (i prm raw : Nat) (s : State) : State :=
  { s with param := Memory.write i (BitVec.ofNat 5 prm) s.param, raw := Memory.write i (BitVec.ofNat 5 raw) s.raw }

/-- The entry is one the variant can hold and the contents invariant allows (R180, R182). -/
def entryLegal (v : Variant) (prm raw : Nat) : Bool :=
  decide (prm ≤ escapeSentinel v) && decide (raw ≤ 31) && (decide (prm = escapeSentinel v) || decide (raw = 0))

/-- SET_PARTITION (R180 to R182, R186). -/
def execSetPartition (s : State) : Host.Outcome State Fault Refusal :=
  if s.arg 0 ≥ s.partitionCount then .next (raise .indexOutOfRange 0 .clear s)
  else if !entryLegal s.prVariant (s.arg 1) (s.arg 2) then .next (raise .parameterOutOfRange 0 .clear s)
  else .next (finish 0 .clear (writePartition (s.arg 0) (s.arg 1) (s.arg 2) s))

/-- The layout of a GET_PARTITION result: parameter [4:0], raw width [12:8], ESC bit 16 (R185). -/
def partitionResult (v : Variant) (p w : BitVec 5) : Word64 :=
  0#47 ++ BitVec.ofBool (p.toNat == escapeSentinel v) ++ 0#3 ++ w ++ 0#3 ++ p

/-- GET_PARTITION (R185, R186). -/
def execGetPartition (s : State) : Host.Outcome State Fault Refusal :=
  if s.arg 0 ≥ s.partitionCount then .next (raise .indexOutOfRange 0 .clear s)
  else .next (finish (partitionResult s.prVariant (s.readParam (s.arg 0)) (s.readRaw (s.arg 0))) .clear s)

end Sys2Proof.Machine
end

