-- ==== Sys2Proof/Machine/StreamFrame.lean ====
section
/-! DEFINITION. StreamInfo and the FrameHeaderValidator: SI_LOAD, STREAM_RESET, FRAME_BEGIN and FHV_VALIDATE
(spec/43_stream_frame.md). -/

namespace Sys2Proof.Machine

/-- The failing-field mask of SI_LOAD: bit 0 rate, 1 channels, 2 bits per sample, 3 minimum block size, 4 maximum block
size, 5 minimum above maximum (R251, R252). -/
def siMask (s : State) : Nat :=
  failMask [rateOk (s.arg 0) false, chOk (s.arg 1), bpsOk (s.arg 2), bsFmt (s.arg 3), bsFmt (s.arg 4),
    decide (s.arg 3 ≤ s.arg 4)]

/-- The StreamInfo record of the operands of SI_LOAD (R251). -/
def State.siOperands (s : State) : StreamInfo where
  rate     := s.args[0]
  channels := s.args[1]
  bps      := s.args[2]
  minBs    := s.args[3]
  maxBs    := s.args[4]
  total    := s.argTotal

/-- SI_LOAD (R251, R252). -/
def execSiLoad (s : State) : Host.Outcome State Fault Refusal :=
  if s.siValid then .next (raise .illegalState 0 .clear s)
  else if siMask s ≠ 0 then
    .next (raise .outOfRange (BitVec.ofNat 64 (siMask s)) (bpsAdvisory (bpsAdv (s.arg 2))) s)
  else
    .next (finish 0 (bpsAdvisory (bpsAdv (s.arg 2))) { s with si := s.siOperands, siValid := true })

/-- STREAM_RESET (R253). -/
def execStreamReset (s : State) : Host.Outcome State Fault Refusal :=
  .next (finish 0 .clear { s with si := .zero, siValid := false, fhv := .unvalidated })

/-- FRAME_BEGIN (R255, R256). -/
def execFrameBegin (s : State) : Host.Outcome State Fault Refusal :=
  .next (finish 0 .clear { s with fhv := .unvalidated })

/-- The block size of a frame header: full-format legal, and at most SI_MAX_BS when a StreamInfo is loaded (R259). -/
def frameBlockOk (s : State) (n : Nat) : Bool := bsFmt n && (!s.siValid || decide (n ≤ s.si.maxBs.toNat))

/-- The rate of a frame header: a zero rate also needs a loaded StreamInfo (R258). -/
def frameRateOk (s : State) (r : Nat) (z : Bool) : Bool :=
  rateOk r z && !(decide (r = 0) && z && !s.siValid)

/-- The failing-field mask of FHV_VALIDATE: bit 0 block size, 1 sample rate, 2 channels, 3 bits per sample (R257). -/
def fhvMask (z : Bool) (s : State) : Nat :=
  failMask [frameBlockOk s (s.arg 0), frameRateOk s (s.arg 1) z, chOk (s.arg 2), bpsOk (s.arg 3)]

/-- FHV_VALIDATE (R254, R257 to R261). -/
def execFhvValidate (z : Bool) (s : State) : Host.Outcome State Fault Refusal :=
  if s.fhv ≠ .unvalidated then .next (raise .illegalState 0 .clear s)
  else if fhvMask z s ≠ 0 then
    .next (raise .outOfRange (BitVec.ofNat 64 (fhvMask z s)) (bpsAdvisory (bpsAdv (s.arg 3)))
      { s with fhv := .rejected })
  else
    .next (finish 0 (bpsAdvisory (bpsAdv (s.arg 3))) { s with fhv := .validated })

end Sys2Proof.Machine
end

