-- ==== Sys2Proof/Machine/Subset.lean ====
section
/-! DEFINITION. SubsetProfileChecker: SUBSET_CHECK (spec/44_subset_check.md). -/

namespace Sys2Proof.Machine

/-- The disqualifying fields, RESULT bits [5:0]: 0 block size, 1 rate, 2 channels, 3 bits per sample, 4 LPC order,
5 partition order (R280, R281). -/
def subsetMask (s : State) : Nat :=
  failMask [bsSub s.cfg (s.arg 0) (s.arg 1), rateOk (s.arg 1) false, chOk (s.arg 2), bpsOk (s.arg 3),
    lpcSub (s.arg 4) (s.arg 1), poSub (s.arg 5)]

/-- Some field fails its full-format predicate (R281). -/
def formatIllegal (s : State) : Bool :=
  !bsFmt (s.arg 0) || !rateOk (s.arg 1) false || !chOk (s.arg 2) || !bpsOk (s.arg 3) || !lpcFmt (s.arg 4) ||
    !poFmt (s.arg 5)

/-- RESULT of SUBSET_CHECK: the mask, bit 8 SUBSET_COMPLIANT, bit 9 FORMAT_ILLEGAL (R281). -/
def subsetResult (s : State) : Word64 :=
  BitVec.ofNat 64
    (subsetMask s + (if subsetMask s = 0 then 2 ^ 8 else 0) + (if formatIllegal s then 2 ^ 9 else 0))

/-- SUBSET_CHECK (R281 to R285): always OK. -/
def execSubsetCheck (s : State) : Host.Outcome State Fault Refusal :=
  .next (finish (subsetResult s) (bpsAdvisory (bpsAdv (s.arg 3))) s)

end Sys2Proof.Machine
end

