-- ==== Sys2Proof/Machine/Dispatch.lean ====
section
/-! DEFINITION. One arm per command (spec/30_encoding.md R102). -/

namespace Sys2Proof.Machine

def exec (i : Instr) (s : State) : Host.Outcome State Fault Refusal :=
  match i with
  | .nop => Sys2Proof.Machine.execNop s
  | .valBlockSize sub => Sys2Proof.Machine.execValBlockSize sub s
  | .valChannels => Sys2Proof.Machine.execValChannels s
  | .valBps => Sys2Proof.Machine.execValBps s
  | .valSampleRate z => Sys2Proof.Machine.execValSampleRate z s
  | .valLpcOrder sub => Sys2Proof.Machine.execValLpcOrder sub s
  | .valPartOrder sub => Sys2Proof.Machine.execValPartOrder sub s
  | .ensureCapacity => Sys2Proof.Machine.execEnsureCapacity s
  | .setHeader v => Sys2Proof.Machine.execSetHeader v s
  | .setPartition => Sys2Proof.Machine.execSetPartition s
  | .getPartition => Sys2Proof.Machine.execGetPartition s
  | .encodeSection sub v => Sys2Proof.Machine.execEncodeSection sub v s
  | .decodeSection sub v => Sys2Proof.Machine.execDecodeSection sub v s
  | .siLoad => Sys2Proof.Machine.execSiLoad s
  | .streamReset => Sys2Proof.Machine.execStreamReset s
  | .frameBegin => Sys2Proof.Machine.execFrameBegin s
  | .fhvValidate z => Sys2Proof.Machine.execFhvValidate z s
  | .subsetCheck => Sys2Proof.Machine.execSubsetCheck s

end Sys2Proof.Machine
end

