-- ==== Sys2Proof/Machine/Window.lean ====
section
/-! DEFINITION. The register window the host sees: names, offsets, reads (spec/10_state.md R32 to R55, spec/20_memory.md
R70 to R78). -/

namespace Sys2Proof.Machine

/-- The registers of R32 and the entries of the residual RAM, by name. -/
inductive RegName where
  | cmd
  | status
  | result
  | resultHi
  | advisory
  | info
  | inPosLo
  | inPosHi
  | outLenLo
  | outLenHi
  | arg (i : Fin 8)
  | siRate
  | siChannels
  | siBps
  | siMinBs
  | siMaxBs
  | siTotalLo
  | siTotalHi
  | res (i : Fin 65536)
deriving DecidableEq, Repr

/-- The offset of a register (R32). -/
def RegName.offset : RegName → Nat
  | .cmd        => 0x000
  | .status     => 0x004
  | .result     => 0x008
  | .resultHi   => 0x00C
  | .advisory   => 0x010
  | .info       => 0x014
  | .inPosLo    => 0x018
  | .inPosHi    => 0x01C
  | .outLenLo   => 0x020
  | .outLenHi   => 0x024
  | .arg i      => 0x040 + 4 * i.val
  | .siRate     => 0x060
  | .siChannels => 0x064
  | .siBps      => 0x068
  | .siMinBs    => 0x06C
  | .siMaxBs    => 0x070
  | .siTotalLo  => 0x074
  | .siTotalHi  => 0x078
  | .res i      => 0x40000 + 4 * i.val

/-- The registers below and above the ARG registers, with their word indices (offset / 4). -/
def fixedRegs : List (Nat × RegName) :=
  [ (0x000 / 4, .cmd), (0x004 / 4, .status), (0x008 / 4, .result), (0x00C / 4, .resultHi), (0x010 / 4, .advisory),
    (0x014 / 4, .info), (0x018 / 4, .inPosLo), (0x01C / 4, .inPosHi), (0x020 / 4, .outLenLo),
    (0x024 / 4, .outLenHi) ] ++
  [ (0x060 / 4, .siRate), (0x064 / 4, .siChannels), (0x068 / 4, .siBps), (0x06C / 4, .siMinBs),
    (0x070 / 4, .siMaxBs), (0x074 / 4, .siTotalLo), (0x078 / 4, .siTotalHi) ]

/-- The register at a 4-byte aligned offset, none at a reserved one (R32, R73, R77). -/
def regAt (offset : Nat) : Option RegName :=
  if 0x40000 ≤ offset ∧ offset < 0x80000 then some (.res (Fin.ofNat 65536 ((offset - 0x40000) / 4)))
  else if 0x040 ≤ offset ∧ offset < 0x060 then some (.arg (Fin.ofNat 8 ((offset - 0x040) / 4)))
  else fixedRegs.lookup (offset / 4)

/-- The register an access selects, or the bus error of its width, its alignment or its reserved offset (R71, R73). -/
def busTarget (offset : BitVec 20) (width : AccessWidth) : Except Fault RegName :=
  if width ≠ .w32 then .error .accessWidth
  else if offset.toNat % 4 ≠ 0 then .error .misaligned
  else
    match regAt offset.toNat with
    | none => .error .reservedOffset
    | some r => .ok r

/-- Bits [31:0] of a 64-bit count or value. -/
def lowHalf (v : Word64) : Word := v.extractLsb' 0 32

/-- Bits [63:32] of a 64-bit count or value. -/
def highHalf (v : Word64) : Word := v.extractLsb' 32 32

/-- The value a host read of a register returns, or the bus error of a read of CMD (R32 to R48, R73, R74). -/
def readReg (s : State) : RegName → Except Fault Word
  | .cmd        => .error .readOfCmd
  | .status     => .ok s.statusReg
  | .result     => .ok (lowHalf s.result)
  | .resultHi   => .ok (highHalf s.result)
  | .advisory   => .ok s.advisoryReg
  | .info       => .ok s.infoReg
  | .inPosLo    => .ok (lowHalf (BitVec.ofNat 64 s.inPos))
  | .inPosHi    => .ok (highHalf (BitVec.ofNat 64 s.inPos))
  | .outLenLo   => .ok (lowHalf (BitVec.ofNat 64 s.outLen))
  | .outLenHi   => .ok (highHalf (BitVec.ofNat 64 s.outLen))
  | .arg i      => .ok s.args[i]
  | .siRate     => .ok s.si.rate
  | .siChannels => .ok s.si.channels
  | .siBps      => .ok s.si.bps
  | .siMinBs    => .ok s.si.minBs
  | .siMaxBs    => .ok s.si.maxBs
  | .siTotalLo  => .ok (lowHalf s.si.total)
  | .siTotalHi  => .ok (highHalf s.si.total)
  | .res i      => .ok (s.readRes i.val)

/-- `MemRead(offset, 4)`, or its bus error (R70, R73). -/
def busRead (s : State) (offset : BitVec 20) (width : AccessWidth) : Except Fault Word :=
  match busTarget offset width with
  | .error f => .error f
  | .ok r => readReg s r

/-- ARG[i] <- v (R40). -/
def writeArg (i : Fin 8) (v : Word) (s : State) : State := { s with args := s.args.set i v }

/-- RES[i] <- s32(v) (R74). -/
def writeResEntry (i : Fin 65536) (v : Word) (s : State) : State := { s with res := Memory.write i.val v s.res }

end Sys2Proof.Machine
end

