-- ==== Sys2Proof/Machine/Command.lean ====
section
/-! DEFINITION. What one event from outside does: a command written to CMD, any other host access, the reset input
(spec/10_state.md R33, spec/20_memory.md R70 to R90, spec/70_reset_and_hazards.md R340). -/

namespace Sys2Proof.Machine

/-- The command `w` runs to completion (R33); an illegal word completes with IllegalCommand (R104). -/
def runCommand (w : Word) (s : State) : Host.Outcome State Fault Refusal :=
  match decode w with
  | .ok i => exec i s
  | .error _ => .next (illegalCommand s)

/-- `MemWrite` to the register an access selects: CMD runs the command, ARG and RES take the value, every other register is
read only (R32, R33, R40, R73, R74). -/
def writeReg (r : RegName) (v : Word) (s : State) : Host.Outcome State Fault Refusal :=
  match r with
  | .cmd   => runCommand v (setReply .written s)
  | .arg i => .next (setReply .written (writeArg i v s))
  | .res i => .next (setReply .written (writeResEntry i v s))
  | _      => .next (setReply (.error .writeToReadOnly) s)

/-- One host access: a read leaves only the reply (R75); a bus error changes nothing but the recorded reply (R73). -/
def hostAccess (a : BusAccess) (s : State) : Host.Outcome State Fault Refusal :=
  match a with
  | .read offset width =>
    match busRead s offset width with
    | .error f => .next (setReply (.error f) s)
    | .ok v => .next (setReply (.data v) s)
  | .write offset width v =>
    match busTarget offset width with
    | .error f => .next (setReply (.error f) s)
    | .ok r => writeReg r v s

/-- One event from outside (R30, R343). While reset is asserted the block answers no access: it has no answer and no
effect (R340). -/
def hostEvent (e : HostEvent) (s : State) : Host.Outcome State Fault Refusal :=
  match e with
  | .access a     => if s.inReset then .next (setReply .none s) else hostAccess a s
  | .assertReset  => .next (assertReset s)
  | .releaseReset => .next (releaseReset s)

/-- The event that writes a command word to CMD (R33, R120). -/
def cmdWrite (w : Word) : HostEvent := .access (.write (BitVec.ofNat 20 RegName.cmd.offset) .w32 w)

end Sys2Proof.Machine
end

