-- ==== Sys2Proof/Machine/Step.lean ====
section
/-! DEFINITION. One step: the host's next event takes effect completely (spec/20_memory.md R90). -/

namespace Sys2Proof.Machine

/-- The next event runs; with none, the block is idle and keeps its state (R291, R321). -/
def step (s : State) : Host.Outcome State Fault Refusal :=
  match s.pending with
  | [] => .next s
  | e :: rest => hostEvent e { s with pending := rest }

/-- The state whose next event writes the table's word to CMD, with reset released so that the block takes it (R340, log
entry 1). -/
def State.withFetchWord (s : State) (nbits w : Nat) : State :=
  { s with inReset := false, pending := cmdWrite (tableWord nbits w) :: s.pending }

end Sys2Proof.Machine
end

