-- ==== Sys2Proof/Safety.lean ====
section
/-! DEFINITION. The terms claims use: which parts of a section are legal, when a residual fits a raw field, and the
invariant of the block. -/

namespace Sys2Proof.Machine

/-- A residual fits a two's-complement field of `w` bits: -2^(w-1) <= r <= 2^(w-1) - 1, and only 0 fits width 0 (R113). -/
def FitsWidth (w : Nat) (r : Word) : Prop :=
  if w = 0 then r = 0 else -(2 : Int) ^ (w - 1) ≤ r.toInt ∧ r.toInt ≤ (2 : Int) ^ (w - 1) - 1

/-- A partition a section may hold: Rice with 0 <= k <= esc - 1, or escaped with 0 <= W <= 31 and residuals that fit it
(R111, R113). -/
def LegalPart (v : Variant) (p : Part) : Prop :=
  match p.1 with
  | .rice k    => k < escapeSentinel v
  | .escaped w => w ≤ 31 ∧ ∀ r ∈ p.2, FitsWidth w r

/-- The StreamInfo record is one SI_LOAD accepts: every field in its full-format range and minimum <= maximum (R41, R251). -/
def StreamInfo.legal (si : StreamInfo) : Prop :=
  (1 ≤ si.rate.toNat ∧ si.rate.toNat ≤ 655350) ∧ (1 ≤ si.channels.toNat ∧ si.channels.toNat ≤ 8) ∧
  (4 ≤ si.bps.toNat ∧ si.bps.toNat ≤ 32) ∧ (16 ≤ si.minBs.toNat ∧ si.minBs.toNat ≤ 65535) ∧
  (16 ≤ si.maxBs.toNat ∧ si.maxBs.toNat ≤ 65535) ∧ si.minBs.toNat ≤ si.maxBs.toNat

/-- The invariant of the block. -/
structure State.Inv (s : State) : Prop where
  /-- PARAM lists indices 0 to 32767 in canonical form (R45). -/
  paramWf  : Memory.wf 32768 s.param
  /-- RAW lists indices 0 to 32767 in canonical form (R45). -/
  rawWf    : Memory.wf 32768 s.raw
  /-- RES lists indices 0 to 65535 in canonical form (R48). -/
  resWf    : Memory.wf 65536 s.res
  /-- PR_ORDER <= CAP_ORDER (R44). -/
  orderCap : s.prOrder.toNat ≤ s.capOrder.toNat
  /-- The StreamInfo invariant while SI_VALID = 1 (R41). -/
  siLegal  : s.siValid = true → s.si.legal
  /-- The StreamInfo registers are 0 while SI_VALID = 0 (R54, R253). -/
  siZero   : s.siValid = false → s.si = StreamInfo.zero
  /-- The cursor does not pass the end of the input stream (R80). -/
  inPosLe  : s.inPos ≤ s.cfg.inBits.length

/-- The contents invariant of R47: each entry of the current header is a Rice parameter below the sentinel with raw
width 0, or the sentinel. -/
def State.ContentsLegal (s : State) : Prop :=
  ∀ i < s.partitionCount,
    ((s.readParam i).toNat ≤ escapeSentinel s.prVariant - 1 ∧ s.readRaw i = 0) ∨
    (s.readParam i).toNat = escapeSentinel s.prVariant

/-- The next event is a host access the block answers: reset is not asserted (R340). -/
def State.NextAccess (s : State) (a : BusAccess) (rest : List HostEvent) : Prop :=
  s.pending = .access a :: rest ∧ s.inReset = false

/-- The two states hold the same operands of the command: they agree on the ARG registers its row lists (R102). -/
def SameOperands (i : Instr) (s s' : State) : Prop :=
  ∀ k : Fin 8, k.val < operandCount i → s.args[k] = s'.args[k]

/-- A 32-bit host read at the offset returns `v` and changes nothing else (R70, R75). -/
def State.ReadsAs (s : State) (offset : Nat) (v : Word) : Prop :=
  ∀ rest, s.NextAccess (.read (BitVec.ofNat 20 offset) .w32) rest →
    step s = .next { s with pending := rest, reply := .data v }

/-- The access is answered with a bus error: some fault is recorded, and nothing else changes (R73). -/
def State.BusErrors (s : State) (a : BusAccess) : Prop :=
  ∀ rest, s.NextAccess a rest → ∃ f, step s = .next { s with pending := rest, reply := .error f }

/-- The residuals of partition `i` of RES[0..bs - p - 1] at order `o` (R203). -/
def State.partResiduals (s : State) (bs p o i : Nat) : List Word :=
  if i = 0 then s.readResRun 0 (bs / 2 ^ o - p) else s.readResRun (i * (bs / 2 ^ o) - p) (bs / 2 ^ o)

/-- The number of residuals of each of the 2^o partitions, in order (R203). -/
def partitionLengths (bs p o : Nat) : List Nat :=
  (bs / 2 ^ o - p) :: List.replicate (2 ^ o - 1) (bs / 2 ^ o)

end Sys2Proof.Machine
end

