-- ==== Sys2Proof/Certificates/Slice0/Obligations.lean ====
section
/-! DEFINITION. The statements about the block, each formalising rules of spec/ (OBLIGATIONS.json names them). In every
statement about a step, `pending` (the host's events to come) and `reply` (the bus's last answer) are the model's own
fields (log entries 1 and 2), not state of the block. -/

open Sys2Proof Sys2Proof.Machine

/-! ### Reset, steps and the host's accesses -/

/-- R54: the values the state holds after reset, for every piece of state to which R54 gives one. -/
def Obligations.ResetStateHoldsTheSpecValues : Prop :=
  State.reset.code = .ok ∧ State.reset.fatal = false ∧ State.reset.result = 0 ∧
  State.reset.advisory = ⟨false, false⟩ ∧ State.reset.prOrder = 0 ∧ State.reset.prVariant = .rice ∧
  State.reset.capOrder = 0 ∧ State.reset.siValid = false ∧ State.reset.si = ⟨0, 0, 0, 0, 0, 0⟩ ∧
  State.reset.fhv = .unvalidated ∧ State.reset.cvalid = false ∧ State.reset.inPos = 0 ∧
  State.reset.outLen = 0 ∧ State.reset.outBits = [] ∧ (∀ i : Fin 8, State.reset.args[i] = 0)

/-- R340: asserting reset writes the reset input alone, and while it is asserted no access is answered or has an effect,
a CMD write among them. That the values of R54 come with the release and not before, and that the model's `reply` and
`pending` say so, are the model's choices (log entries 10, 2 and 1). -/
def Obligations.AssertedResetAnswersNoAccess : Prop :=
  ∀ (s : State) (rest : List HostEvent),
    (s.pending = .assertReset :: rest →
      step s = .next { s with pending := rest, reply := .none, inReset := true }) ∧
    (∀ a, s.pending = .access a :: rest → s.inReset = true →
      step s = .next { s with pending := rest, reply := .none })

/-- R54, R340, R341, R344: the release of the platform's reset, from every state; the block takes a CMD write at once. That
the entries R344 leaves unspecified are the free values of a draw number not used before, and that a reset leaves the
events still to come, are the model's choices (log entries 4 and 1). -/
def Obligations.PlatformResetRestoresTheResetState : Prop :=
  ∀ (s : State) (rest : List HostEvent), s.pending = .releaseReset :: rest → s.inReset = true →
    ∃ t, step s = .next t ∧ t.inReset = false ∧
      t.code = .ok ∧ t.fatal = false ∧ t.result = 0 ∧ t.advisory = ⟨false, false⟩ ∧ t.prOrder = 0 ∧
      t.prVariant = .rice ∧ t.capOrder = 0 ∧ t.siValid = false ∧ t.si = ⟨0, 0, 0, 0, 0, 0⟩ ∧
      t.fhv = .unvalidated ∧ t.cvalid = false ∧ t.inPos = 0 ∧ t.outLen = 0 ∧ t.outBits = [] ∧
      (∀ i : Fin 8, t.args[i] = 0) ∧
      (∀ i, t.readParam i = Config.paramDraw s.draws i) ∧ (∀ i, t.readRaw i = Config.rawDraw s.draws i) ∧
      (∀ i, t.readRes i = Config.resDraw s.draws i) ∧
      t.cfg = s.cfg ∧ t.reader = ⟨0, s.cfg.inBits⟩ ∧ t.pending = rest

/-- R33: a legal word written to CMD runs as its command, on the state that holds the bus's reply and the events left (the
model's fields, log entries 1 and 2). -/
def Obligations.StepRunsTheCommandWritten : Prop :=
  ∀ (s : State) (w : Word) (i : Instr) (rest : List HostEvent),
    s.NextAccess (.write 0 .w32 w) rest → decode w = .ok i →
    step s = exec i { s with pending := rest, reply := .written }

/-- R104: an illegal word written to CMD. -/
def Obligations.IllegalWordCompletesWithIllegalCommand : Prop :=
  ∀ (s : State) (w : Word) (rest : List HostEvent),
    s.NextAccess (.write 0 .w32 w) rest →
    ((w.extractLsb' 0 8).toNat ∉ CommandWord.opcodes ∨ w.extractLsb' 11 21 ≠ 0 ∨
      (w.getLsbD 8 = true ∧ (w.extractLsb' 0 8).toNat ∉ CommandWord.admitS) ∨
      (w.getLsbD 9 = true ∧ (w.extractLsb' 0 8).toNat ∉ CommandWord.admitV) ∨
      (w.getLsbD 10 = true ∧ (w.extractLsb' 0 8).toNat ∉ CommandWord.admitZ)) →
    step s = .next { s with pending := rest, reply := .written, code := .illegalCommand, result := 0,
                            advisory := ⟨false, false⟩ }

/-- With no event left the block is idle and keeps its state (R321); with any event a step completes: no access, no
command and no failure stops the block (R306, R310). -/
def Obligations.EveryStepCompletes : Prop :=
  ∀ s : State, (∃ t, step s = .next t) ∧ (s.pending = [] → step s = .next s)

/-- The values the host reads at the offsets of R32 (R34 to R41). -/
def Obligations.RegisterReadsReturnTheirFields : Prop :=
  ∀ s : State,
    s.ReadsAs 0x004 (BitVec.ofNat 32 (s.code.bits.toNat + if s.fatal then 2 ^ 8 else 0)) ∧
    s.ReadsAs 0x008 (BitVec.ofNat 32 s.result.toNat) ∧
    s.ReadsAs 0x00C (BitVec.ofNat 32 (s.result.toNat / 2 ^ 32)) ∧
    s.ReadsAs 0x010 (BitVec.ofNat 32
      ((if s.advisory.bpsGt24 then 1 else 0) + if s.advisory.partOrderGt8 then 2 else 0)) ∧
    s.ReadsAs 0x014 (BitVec.ofNat 32
      (s.prOrder.toNat + (if s.prVariant = .rice2 then 2 ^ 4 else 0) + s.capOrder.toNat * 2 ^ 8 +
        (if s.siValid then 2 ^ 12 else 0) +
        (if s.fhv = .validated then 2 ^ 13 else if s.fhv = .rejected then 2 ^ 14 else 0) +
        if s.cvalid then 2 ^ 15 else 0)) ∧
    s.ReadsAs 0x018 (BitVec.ofNat 32 s.inPos) ∧ s.ReadsAs 0x01C (BitVec.ofNat 32 (s.inPos / 2 ^ 32)) ∧
    s.ReadsAs 0x020 (BitVec.ofNat 32 s.outLen) ∧ s.ReadsAs 0x024 (BitVec.ofNat 32 (s.outLen / 2 ^ 32)) ∧
    (∀ i : Fin 8, s.ReadsAs (0x040 + 4 * i.val) s.args[i]) ∧
    s.ReadsAs 0x060 s.si.rate ∧ s.ReadsAs 0x064 s.si.channels ∧ s.ReadsAs 0x068 s.si.bps ∧
    s.ReadsAs 0x06C s.si.minBs ∧ s.ReadsAs 0x070 s.si.maxBs ∧
    s.ReadsAs 0x074 (BitVec.ofNat 32 s.si.total.toNat) ∧
    s.ReadsAs 0x078 (BitVec.ofNat 32 (s.si.total.toNat / 2 ^ 32))

/-- R300: the numbers of the status codes. -/
def Obligations.StatusCodesHaveTheSpecNumbers : Prop :=
  StatusCode.ok.bits = 0 ∧ StatusCode.outOfRange.bits = 1 ∧ StatusCode.invalidPartitionGeometry.bits = 2 ∧
  StatusCode.parameterOutOfRange.bits = 3 ∧ StatusCode.truncatedStream.bits = 4 ∧
  StatusCode.indexOutOfRange.bits = 5 ∧ StatusCode.illegalCommand.bits = 6 ∧ StatusCode.illegalState.bits = 7

/-- R74: the residual RAM window. -/
def Obligations.ResidualWindowReadsAndWritesOneEntry : Prop :=
  ∀ (s : State) (i : Nat), i < 65536 →
    s.ReadsAs (0x40000 + 4 * i) (s.readRes i) ∧
    ∀ (v : Word) (rest : List HostEvent), s.NextAccess (.write (BitVec.ofNat 20 (0x40000 + 4 * i)) .w32 v) rest →
      ∃ t, step s = .next t ∧ t.readRes i = v ∧ (∀ j, j ≠ i → t.readRes j = s.readRes j) ∧
        { t with res := s.res } = { s with pending := rest, reply := .written }

/-- R40: a host write of an ARG register sets that register and nothing else. -/
def Obligations.ArgWriteSetsOneRegister : Prop :=
  ∀ (s : State) (i : Fin 8) (v : Word) (rest : List HostEvent),
    s.NextAccess (.write (BitVec.ofNat 20 (0x040 + 4 * i.val)) .w32 v) rest →
    ∃ t, step s = .next t ∧ t.args[i] = v ∧ (∀ j : Fin 8, j ≠ i → t.args[j] = s.args[j]) ∧
      { t with args := s.args } = { s with pending := rest, reply := .written }

/-- R73: the accesses answered with a bus error, which changes no state of the block. -/
def Obligations.BusErrorsChangeNothing : Prop :=
  ∀ (s : State) (a : BitVec 20) (w : AccessWidth) (v : Word),
    ((w ≠ .w32 ∨ a.toNat % 4 ≠ 0 ∨ (0x028 ≤ a.toNat ∧ a.toNat ≤ 0x03F) ∨
        (0x07C ≤ a.toNat ∧ a.toNat ≤ 0x3FFFF) ∨ 0x80000 ≤ a.toNat) →
      s.BusErrors (.read a w) ∧ s.BusErrors (.write a w v)) ∧
    (a = 0 → s.BusErrors (.read a w)) ∧
    (((0x004 ≤ a.toNat ∧ a.toNat ≤ 0x027) ∨ (0x060 ≤ a.toNat ∧ a.toNat ≤ 0x07B)) → s.BusErrors (.write a w v))

/-! ### The command word -/

/-- R102, R104: the decoder reads a word as a command exactly when the word is that command's encoding. -/
def Obligations.DecodeReadsExactlyTheEncodedWord : Prop :=
  ∀ (w : Word) (i : Instr), decode w = .ok i ↔ w = encode i

/-- R104: the decoder accepts exactly the legal words, said without the decoder. -/
def Obligations.DecodeAcceptsExactlyTheLegalWords : Prop :=
  ∀ w : Word, (∃ i, decode w = .ok i) ↔ CommandWord.wellFormed w = true

/-- R105: the reserved opcodes are illegal, whatever the other bits. -/
def Obligations.ReservedOpcodesAreIllegal : Prop :=
  ∀ (w : Word) (n : Nat), (w.extractLsb' 0 8).toNat = n →
    ((0x07 ≤ n ∧ n ≤ 0x0F) ∨ (0x14 ≤ n ∧ n ≤ 0x1F) ∨ (0x22 ≤ n ∧ n ≤ 0x2F) ∨ (0x34 ≤ n ∧ n ≤ 0x3F) ∨
      (0x41 ≤ n ∧ n ≤ 0xFF)) →
    ∃ e, decode w = .error e

/-- R102: no word selects two rows of the opcode map. -/
def Obligations.NoWordSelectsTwoRows : Prop :=
  opcodeRows.Pairwise (fun a b => ∀ w : Word, ¬ (a.selects w = true ∧ b.selects w = true))

/-- Words written out from R100 and R102, one or more a family, and the commands they stand for. -/
def Obligations.WordsOfEachFamilyDecodeAsTheSpecSays : Prop :=
  decode 0x00000000 = .ok .nop ∧ decode 0x00000101 = .ok (.valBlockSize true) ∧
  decode 0x00000404 = .ok (.valSampleRate true) ∧ decode 0x00000211 = .ok (.setHeader .rice2) ∧
  decode 0x00000012 = .ok .setPartition ∧ decode 0x00000120 = .ok (.encodeSection true .rice) ∧
  decode 0x00000321 = .ok (.decodeSection true .rice2) ∧ decode 0x00000030 = .ok .siLoad ∧
  decode 0x00000433 = .ok (.fhvValidate true) ∧ decode 0x00000040 = .ok .subsetCheck

/-! ### FormatLimits -/

/-- R141 with R140: VAL_BLOCK_SIZE, for every value of the two parameters. -/
def Obligations.ValBlockSizeChecksBothRegimes : Prop :=
  (∀ sub, decode (if sub then 0x00000101 else 0x00000001) = .ok (.valBlockSize sub)) ∧
  ∀ (s : State) (sub : Bool) (n rate : Nat), s.args[0].toNat = n → s.args[1].toNat = rate →
    exec (.valBlockSize sub) s = .next { s with
      code := if ¬ (16 ≤ n ∧ n ≤ 65535) ∨ (sub = true ∧ ¬ (n ∈ s.cfg.canonBlockSizes ∧
          (rate > 48000 ∨ n ≤ 4608) ∧ (rate ≤ 48000 ∨ n ≤ s.cfg.subsetMaxBsHighRate))) then .outOfRange else .ok,
      result := if ¬ (16 ≤ n ∧ n ≤ 65535) then 3
        else if ¬ (n ∈ s.cfg.canonBlockSizes ∧ (rate > 48000 ∨ n ≤ 4608) ∧
          (rate ≤ 48000 ∨ n ≤ s.cfg.subsetMaxBsHighRate)) then 2 else 0,
      advisory := ⟨false, false⟩ }

/-- R143: VAL_CHANNELS. -/
def Obligations.ValChannelsAcceptsOneToEight : Prop :=
  decode 0x00000002 = .ok .valChannels ∧
  ∀ (s : State) (c : Nat), s.args[0].toNat = c →
    (1 ≤ c ∧ c ≤ 8 →
      exec .valChannels s = .next { s with code := .ok, result := 0, advisory := ⟨false, false⟩ }) ∧
    (c = 0 ∨ c > 8 →
      exec .valChannels s = .next { s with code := .outOfRange, result := 3, advisory := ⟨false, false⟩ })

/-- R145: VAL_BPS, with the advisory above 24 bits. -/
def Obligations.ValBpsFlagsAboveTwentyFour : Prop :=
  decode 0x00000003 = .ok .valBps ∧
  ∀ (s : State) (b : Nat), s.args[0].toNat = b →
    (4 ≤ b ∧ b ≤ 32 →
      exec .valBps s = .next { s with code := .ok, result := 0, advisory := ⟨decide (25 ≤ b), false⟩ }) ∧
    (b < 4 ∨ b > 32 →
      exec .valBps s = .next { s with code := .outOfRange, result := 3, advisory := ⟨false, false⟩ })

/-- R147: VAL_SAMPLE_RATE. -/
def Obligations.ValSampleRateAllowsZeroOnlyWithZ : Prop :=
  (∀ z, decode (if z then 0x00000404 else 0x00000004) = .ok (.valSampleRate z)) ∧
  ∀ (s : State) (z : Bool) (r : Nat), s.args[0].toNat = r →
    ((1 ≤ r ∧ r ≤ 655350) ∨ (r = 0 ∧ z = true) →
      exec (.valSampleRate z) s = .next { s with code := .ok, result := 0, advisory := ⟨false, false⟩ }) ∧
    (r > 655350 ∨ (r = 0 ∧ z = false) →
      exec (.valSampleRate z) s = .next { s with code := .outOfRange, result := 3, advisory := ⟨false, false⟩ })

/-- R149 with R140: VAL_LPC_ORDER. -/
def Obligations.ValLpcOrderChecksBothRegimes : Prop :=
  (∀ sub, decode (if sub then 0x00000105 else 0x00000005) = .ok (.valLpcOrder sub)) ∧
  ∀ (s : State) (sub : Bool) (o rate : Nat), s.args[0].toNat = o → s.args[1].toNat = rate →
    exec (.valLpcOrder sub) s = .next { s with
      code := if o > 32 ∨ (sub = true ∧ rate ≤ 48000 ∧ o > 12) then .outOfRange else .ok,
      result := if o > 32 then 3 else if rate ≤ 48000 ∧ o > 12 then 2 else 0,
      advisory := ⟨false, false⟩ }

/-- R151 with R140: VAL_PART_ORDER. -/
def Obligations.ValPartOrderChecksBothRegimes : Prop :=
  (∀ sub, decode (if sub then 0x00000106 else 0x00000006) = .ok (.valPartOrder sub)) ∧
  ∀ (s : State) (sub : Bool) (o : Nat), s.args[0].toNat = o →
    exec (.valPartOrder sub) s = .next { s with
      code := if o > 15 ∨ (sub = true ∧ o > 8) then .outOfRange else .ok,
      result := if o > 15 then 3 else if o > 8 then 2 else 0,
      advisory := ⟨false, false⟩ }

/-- R153, R282, R103: the validators and SUBSET_CHECK read nothing but the operands of their row (and, for block sizes,
the two parameters of R142), and write nothing but STATUS.CODE, RESULT and ADVISORY. -/
def Obligations.ValidatorsDependOnOperandsAlone : Prop :=
  ∀ (s s' : State) (i : Instr), SameOperands i s s' →
    (i = .valBlockSize false ∨ i = .valBlockSize true ∨ i = .subsetCheck →
      s.cfg.canonBlockSizes = s'.cfg.canonBlockSizes ∧ s.cfg.subsetMaxBsHighRate = s'.cfg.subsetMaxBsHighRate) →
    i ∈ [Instr.valBlockSize false, .valBlockSize true, .valChannels, .valBps, .valSampleRate false,
      .valSampleRate true, .valLpcOrder false, .valLpcOrder true, .valPartOrder false, .valPartOrder true,
      .subsetCheck] →
    ∃ c r a, exec i s = .next { s with code := c, result := r, advisory := a } ∧
      exec i s' = .next { s' with code := c, result := r, advisory := a } ∧ (i = .subsetCheck → c = .ok)

/-! ### PartitionedRiceContents -/

/-- R171: ENSURE_CAPACITY. -/
def Obligations.EnsureCapacityGrowsToTheOrder : Prop :=
  decode 0x00000010 = .ok .ensureCapacity ∧
  ∀ (s : State) (o : Nat), s.args[0].toNat = o →
    (o ≤ 15 → exec .ensureCapacity s = .next { s with
      capOrder := BitVec.ofNat 4 (max s.capOrder.toNat o), code := .ok,
      result := BitVec.ofNat 64 (max s.capOrder.toNat o), advisory := ⟨false, false⟩ }) ∧
    (o > 15 → exec .ensureCapacity s = .next { s with
      code := .outOfRange, result := 0, advisory := ⟨false, false⟩ })

/-- R175: SET_HEADER. -/
def Obligations.SetHeaderWritesOrderAndVariant : Prop :=
  (decode 0x00000011 = .ok (.setHeader .rice) ∧ decode 0x00000211 = .ok (.setHeader .rice2)) ∧
  ∀ (s : State) (v : Variant) (o : Nat), s.args[0].toNat = o →
    (o ≤ 15 → exec (.setHeader v) s = .next { s with
      capOrder := BitVec.ofNat 4 (max s.capOrder.toNat o), prOrder := BitVec.ofNat 4 o, prVariant := v,
      code := .ok, result := BitVec.ofNat 64 (max s.capOrder.toNat o), advisory := ⟨false, false⟩ }) ∧
    (o > 15 → exec (.setHeader v) s = .next { s with
      code := .outOfRange, result := 0, advisory := ⟨false, false⟩ })

/-- R180: SET_PARTITION: its checks, the index first, and the one entry a legal call writes; a refused call writes none. -/
def Obligations.SetPartitionWritesOneLegalEntry : Prop :=
  decode 0x00000012 = .ok .setPartition ∧
  ∀ (s : State) (i prm raw esc : Nat),
    s.args[0].toNat = i → s.args[1].toNat = prm → s.args[2].toNat = raw →
    esc = (if s.prVariant = .rice then 15 else 31) →
    (i ≥ 2 ^ s.prOrder.toNat → exec .setPartition s = .next { s with
      code := .indexOutOfRange, fatal := true, result := 0, advisory := ⟨false, false⟩ }) ∧
    (i < 2 ^ s.prOrder.toNat → (prm > esc ∨ raw > 31 ∨ (prm ≠ esc ∧ raw ≠ 0)) →
      exec .setPartition s = .next { s with
        code := .parameterOutOfRange, result := 0, advisory := ⟨false, false⟩ }) ∧
    (i < 2 ^ s.prOrder.toNat → prm ≤ esc → raw ≤ 31 → (prm = esc ∨ raw = 0) →
      ∃ t, exec .setPartition s = .next t ∧
        (t.readParam i).toNat = prm ∧ (t.readRaw i).toNat = raw ∧
        (∀ j, j ≠ i → t.readParam j = s.readParam j ∧ t.readRaw j = s.readRaw j) ∧
        { t with param := s.param, raw := s.raw } =
          { s with code := .ok, result := 0, advisory := ⟨false, false⟩ })

/-- R185: GET_PARTITION. -/
def Obligations.GetPartitionReturnsTheEntry : Prop :=
  decode 0x00000013 = .ok .getPartition ∧
  ∀ (s : State) (i esc : Nat), s.args[0].toNat = i → esc = (if s.prVariant = .rice then 15 else 31) →
    (i < 2 ^ s.prOrder.toNat → exec .getPartition s = .next { s with
      code := .ok, advisory := ⟨false, false⟩,
      result := BitVec.ofNat 64 ((s.readParam i).toNat + (s.readRaw i).toNat * 2 ^ 8 +
        if (s.readParam i).toNat = esc then 2 ^ 16 else 0) }) ∧
    (i ≥ 2 ^ s.prOrder.toNat → exec .getPartition s = .next { s with
      code := .indexOutOfRange, fatal := true, result := 0, advisory := ⟨false, false⟩ })

/-! ### The codec's functions -/

/-- R204: the sign fold as its formula and as numbers, and that it is a bijection. -/
def Obligations.ZigzagFoldsTheSign : Prop :=
  (∀ r : Word, zigzag r = (r <<< 1) ^^^ (r.sshiftRight 31)) ∧
  (∀ r : Word, ((zigzag r).toNat : Int) = if 0 ≤ r.toInt then 2 * r.toInt else -2 * r.toInt - 1) ∧
  Function.Bijective zigzag

/-- R205: the unfold as its formula and as numbers, and that it undoes the fold on both sides. -/
def Obligations.UnzigzagUndoesTheFold : Prop :=
  (∀ u : Word, unzigzag u = (u >>> 1) ^^^ (0 - (u &&& 1)) ∧
    (unzigzag u).toInt = (if u.toNat % 2 = 0 then (u.toNat : Int) / 2 else -(((u.toNat : Int) + 1) / 2)) ∧
    zigzag (unzigzag u) = u) ∧
  ∀ r : Word, unzigzag (zigzag r) = r

/-- R206: the width of a residual is the least two's-complement width that holds it, and the raw width of a partition the
least that holds every residual of it. -/
def Obligations.RawWidthIsTheLeastThatFits : Prop :=
  (∀ (r : Word) (w : Nat), width r ≤ w ↔ FitsWidth w r) ∧
  ∀ (rs : List Word) (w : Nat), rawWidth rs ≤ w ↔ ∀ r ∈ rs, FitsWidth w r

/-- R208: the Rice parameter is the least of least cost in the variant's range. -/
def Obligations.KbestIsTheLeastOfLeastCost : Prop :=
  ∀ (rs : List Word) (v : Variant),
    kbest rs v ≤ (if v = .rice then 14 else 30) ∧
    (∀ k, k ≤ (if v = .rice then 14 else 30) → cost rs (kbest rs v) ≤ cost rs k) ∧
    (∀ k, k < kbest rs v → cost rs (kbest rs v) < cost rs k)

/-- R210: an empty partition, a partition of zeros, and a tie. -/
def Obligations.EmptyZeroAndTiedPartitions : Prop :=
  ∀ v : Variant,
    (chooseCode v [] = .rice 0 ∧ (partBits v (.rice 0) []).length = paramWidth v) ∧
    (∀ n, 1 ≤ n → chooseCode v (List.replicate n 0) = .escaped 0 ∧
      (partBits v (.escaped 0) (List.replicate n 0)).length = paramWidth v + 5) ∧
    (∀ rs, cost rs (kbest rs v) = rs.length * rawWidth rs → chooseCode v rs = .rice (kbest rs v))

/-- R112, R113: each code's bits are as many as its cost counts, whichever code a partition gets. -/
def Obligations.PartitionBitsCostWhatTheChoiceCounts : Prop :=
  ∀ (v : Variant) (rs : List Word),
    (∀ k, (partBits v (.rice k) rs).length = paramWidth v + cost rs k) ∧
    (∀ w, (partBits v (.escaped w) rs).length = paramWidth v + 5 + rs.length * w) ∧
    LegalPart v (chooseCode v rs, rs)

/-- R80, R81: reading `n` bits. -/
def Obligations.ReadBitsTakesTheNextBitsMsbFirst : Prop :=
  ∀ (n : Nat) (rd : Reader),
    (n ≤ rd.rest.length → readBits n rd =
      .ok (((List.range n).map (fun j => (rd.rest.getD j false).toNat * 2 ^ (n - 1 - j))).sum,
        ⟨rd.pos + n, rd.rest.drop n⟩)) ∧
    (rd.rest.length < n → readBits n rd = .error .eof)

/-- R234: reading one Rice code: its value, in range for every Rice parameter (R200), the quotient that cannot fit, and the
streams that end too early, with the status code each failure raises. -/
def Obligations.RiceReadBoundsTheQuotient : Prop :=
  ReadFail.eof.code = .truncatedStream ∧ ReadFail.overflow.code = .parameterOutOfRange ∧
  ∀ (k pos q : Nat) (tail : List Bool),
    (q ≤ (2 ^ 32 - 1) >>> k → ∀ rem, rem < 2 ^ k →
      (k ≤ 30 → q * 2 ^ k + rem ≤ 2 ^ 32 - 1) ∧
      riceRead k ⟨pos, List.replicate q false ++ true :: (bitsOf k rem ++ tail)⟩ =
        .ok (unzigzag (BitVec.ofNat 32 (q * 2 ^ k + rem)), ⟨pos + q + 1 + k, tail⟩)) ∧
    (q ≤ (2 ^ 32 - 1) >>> k → tail.length < k →
      riceRead k ⟨pos, List.replicate q false ++ true :: tail⟩ = .error .eof) ∧
    (q ≤ (2 ^ 32 - 1) >>> k → riceRead k ⟨pos, List.replicate q false⟩ = .error .eof) ∧
    (q = ((2 ^ 32 - 1) >>> k) + 1 → riceRead k ⟨pos, List.replicate q false ++ tail⟩ = .error .overflow)

/-! ### ENCODE -/

/-- R220, R209: a legal ENCODE: the bits it appends, the entries it writes, and everything it leaves. A partition with
residuals P is escaped with W = rawWidth(P) exactly when W <= 31 and cost(kb) > n * W, and Rice with kb = kbest(P)
otherwise. -/
def Obligations.EncodeWritesTheSection : Prop :=
  ∀ (s : State) (sub : Bool) (v : Variant) (bs p o : Nat) (P : Nat → List Word),
    s.args[0].toNat = bs → s.args[1].toNat = p → s.args[2].toNat = o →
    o ≤ 15 → (sub = true → o ≤ 8) → bs ≤ 65535 → bs % 2 ^ o = 0 → p ≤ bs / 2 ^ o →
    (∀ i, P i = s.partResiduals bs p o i) →
    ∃ t, exec (.encodeSection sub v) s = .next t ∧
      t.outBits = s.outBits ++ bitsOf 4 o ++ ((List.range (2 ^ o)).map fun i =>
        if rawWidth (P i) ≤ 31 ∧ cost (P i) (kbest (P i) v) > (P i).length * rawWidth (P i)
        then partBits v (.escaped (rawWidth (P i))) (P i)
        else partBits v (.rice (kbest (P i) v)) (P i)).flatten ∧
      (∀ i, i < 2 ^ o →
        if rawWidth (P i) ≤ 31 ∧ cost (P i) (kbest (P i) v) > (P i).length * rawWidth (P i)
        then (t.readParam i).toNat = (if v = .rice then 15 else 31) ∧ (t.readRaw i).toNat = rawWidth (P i)
        else (t.readParam i).toNat = kbest (P i) v ∧ t.readRaw i = 0) ∧
      (∀ i, 2 ^ o ≤ i → t.readParam i = s.readParam i ∧ t.readRaw i = s.readRaw i) ∧
      { t with param := s.param, raw := s.raw, outBits := s.outBits } =
        { s with code := .ok, result := BitVec.ofNat 64 (t.outLen - s.outLen),
                 advisory := ⟨false, decide (9 ≤ o)⟩, capOrder := BitVec.ofNat 4 (max s.capOrder.toNat o),
                 prOrder := BitVec.ofNat 4 o, prVariant := v, cvalid := true }

/-- R222: ENCODE appends to the output stream, by how much OUT_LEN grows (the choice of R209 spelled out), and that no
other command writes the stream. -/
def Obligations.EncodeAloneAdvancesOutLen : Prop :=
  (∀ (s : State) (sub : Bool) (v : Variant) (bs p o : Nat) (P : Nat → List Word),
    s.args[0].toNat = bs → s.args[1].toNat = p → s.args[2].toNat = o →
    o ≤ 15 → (sub = true → o ≤ 8) → bs ≤ 65535 → bs % 2 ^ o = 0 → p ≤ bs / 2 ^ o →
    (∀ i, P i = s.partResiduals bs p o i) →
    ∃ t bits, exec (.encodeSection sub v) s = .next t ∧ t.outBits = s.outBits ++ bits ∧
      t.outLen = s.outLen + 4 + ((List.range (2 ^ o)).map fun i =>
        if rawWidth (P i) ≤ 31 ∧ cost (P i) (kbest (P i) v) > (P i).length * rawWidth (P i)
        then paramWidth v + 5 + (P i).length * rawWidth (P i)
        else paramWidth v + cost (P i) (kbest (P i) v)).sum) ∧
  (∀ (s t : State) (i : Instr), (∀ sub v, i ≠ .encodeSection sub v) → exec i s = .next t → t.outBits = s.outBits)

/-- R221: a failing ENCODE: the code of the first check that fails, and nothing written. -/
def Obligations.FailingEncodeWritesNothing : Prop :=
  ∀ (s : State) (sub : Bool) (v : Variant) (bs p o : Nat),
    s.args[0].toNat = bs → s.args[1].toNat = p → s.args[2].toNat = o →
    (o > 15 ∨ (sub = true ∧ o > 8) ∨ bs > 65535 ∨ bs % 2 ^ o ≠ 0 ∨ bs / 2 ^ o < p) →
    exec (.encodeSection sub v) s = .next { s with
      code := if o > 15 ∨ (sub = true ∧ o > 8) ∨ bs > 65535 then .outOfRange else .invalidPartitionGeometry,
      result := 0, advisory := ⟨false, decide (9 ≤ o ∧ o ≤ 15)⟩, cvalid := false }

/-! ### DECODE -/

/-- R111, R113, R230: DECODE of any legal section (not only of those ENCODE writes) restores its partitions. -/
def Obligations.DecodeReadsEveryLegalSection : Prop :=
  ∀ (s : State) (sub : Bool) (v : Variant) (bs p o : Nat) (parts : List Part) (tail : List Bool),
    s.args[0].toNat = bs → s.args[1].toNat = p → s.fhv ≠ .rejected → bs ≤ 65535 → o ≤ 15 →
    (sub = true → o ≤ 8) → bs % 2 ^ o = 0 → p ≤ bs / 2 ^ o →
    (∀ q ∈ parts, LegalPart v q) → parts.map (fun q => q.2.length) = partitionLengths bs p o →
    s.cfg.inBits.drop s.inPos = sectionBits v o parts ++ tail →
    ∃ t, exec (.decodeSection sub v) s = .next t ∧
      t.readResRun 0 (bs - p) = (parts.map (fun q => q.2)).flatten ∧
      (∀ j, bs - p ≤ j → t.readRes j = s.readRes j) ∧
      (∀ i (h : i < parts.length), t.readParam i = parts[i].1.param v ∧ t.readRaw i = parts[i].1.raw) ∧
      (∀ i, 2 ^ o ≤ i → t.readParam i = s.readParam i ∧ t.readRaw i = s.readRaw i) ∧
      { t with param := s.param, raw := s.raw, res := s.res } =
        { s with code := .ok, result := BitVec.ofNat 64 (sectionBits v o parts).length,
                 advisory := ⟨false, decide (9 ≤ o)⟩, inPos := s.inPos + (sectionBits v o parts).length,
                 capOrder := BitVec.ofNat 4 (max s.capOrder.toNat o), prOrder := BitVec.ofNat 4 o,
                 prVariant := v, cvalid := true }

/-- R238: the round trip. DECODE, from any state whose input stream holds at IN_POS the bits an ENCODE appended,
completes with OK and restores what ENCODE read and wrote. Each command may ask for strict Subset where the order allows. -/
def Obligations.DecodeOfEncodeRestoresTheResiduals : Prop :=
  ∀ (s t d : State) (sub sub' : Bool) (v : Variant) (bs p o : Nat) (bits tail : List Bool),
    s.args[0].toNat = bs → s.args[1].toNat = p → s.args[2].toNat = o →
    o ≤ 15 → bs ≤ 65535 → bs % 2 ^ o = 0 → p ≤ bs / 2 ^ o →
    (sub = true → o ≤ 8) → (sub' = true → o ≤ 8) →
    exec (.encodeSection sub v) s = .next t → t.outBits = s.outBits ++ bits →
    d.args[0].toNat = bs → d.args[1].toNat = p → d.fhv ≠ .rejected →
    d.cfg.inBits.drop d.inPos = bits ++ tail →
    t.code = .ok ∧ ∃ d', exec (.decodeSection sub' v) d = .next d' ∧ d'.code = .ok ∧
      (∀ j, j < bs - p → d'.readRes j = s.readRes j) ∧
      (∀ i, i < 2 ^ o → d'.readParam i = t.readParam i ∧ d'.readRaw i = t.readRaw i) ∧
      d'.inPos = d.inPos + bits.length ∧ d'.result = BitVec.ofNat 64 bits.length

/-- R240, R236, R303: DECODE is refused while the frame is Rejected and only then, and ENCODE does not consult FHV_STATE.
That the refusal leaves CVALID is the reading of R236 and R303 over the wording of R49 in log entry 8 (DEDUCED). -/
def Obligations.DecodeIsRefusedExactlyWhileRejected : Prop :=
  ∀ (s : State) (sub : Bool) (v : Variant),
    (s.fhv = .rejected → exec (.decodeSection sub v) s = .next { s with
      code := .illegalState, result := 0, advisory := ⟨false, false⟩ }) ∧
    (s.fhv ≠ .rejected → ∃ t, exec (.decodeSection sub v) s = .next t ∧ t.code ≠ .illegalState) ∧
    (∀ f, ∃ t, exec (.encodeSection sub v) s = .next t ∧
      exec (.encodeSection sub v) { s with fhv := f } = .next { t with fhv := f })

/-- R235, R236: the failures of DECODE before the partitions, in their order, and what each leaves. -/
def Obligations.DecodeFailuresBeforeThePartitions : Prop :=
  ∀ (s : State) (sub : Bool) (v : Variant) (bs p : Nat),
    s.args[0].toNat = bs → s.args[1].toNat = p → s.fhv ≠ .rejected →
    (bs > 65535 → exec (.decodeSection sub v) s = .next { s with
      code := .outOfRange, result := 0, advisory := ⟨false, false⟩, cvalid := false }) ∧
    (bs ≤ 65535 → (s.cfg.inBits.drop s.inPos).length < 4 →
      ∃ t, exec (.decodeSection sub v) s = .next t ∧ s.inPos ≤ t.inPos ∧
        (s.inPos ≤ s.cfg.inBits.length → t.inPos ≤ s.cfg.inBits.length) ∧
        { t with inPos := s.inPos, draws := s.draws } = { s with
          code := .truncatedStream, result := 0, advisory := ⟨false, false⟩, cvalid := false }) ∧
    (bs ≤ 65535 → ∀ (o : Nat) (rest : List Bool), o ≤ 15 →
      s.cfg.inBits.drop s.inPos = bitsOf 4 o ++ rest →
      ((sub = true ∧ o > 8) ∨ bs % 2 ^ o ≠ 0 ∨ bs / 2 ^ o < p) →
      exec (.decodeSection sub v) s = .next { s with
        code := if sub = true ∧ o > 8 then .outOfRange else .invalidPartitionGeometry,
        result := 0, advisory := ⟨false, decide (9 ≤ o)⟩, cvalid := false, inPos := s.inPos + 4 })

/-- R236: a DECODE that fails inside the partitions: the header of the section, free values in the contents below 2^o and
in RES[0..bs - p - 1], a cursor between its start and the end of the stream, and everything else as before. The numbering
of the draws is the model's (log entry 4). -/
def Obligations.FailedDecodeLeavesFreeValues : Prop :=
  ∀ (s t : State) (sub : Bool) (v : Variant) (bs p o : Nat) (rest : List Bool),
    s.args[0].toNat = bs → s.args[1].toNat = p → o ≤ 15 → s.cfg.inBits.drop s.inPos = bitsOf 4 o ++ rest →
    exec (.decodeSection sub v) s = .next t → (t.code = .truncatedStream ∨ t.code = .parameterOutOfRange) →
    (∃ n, s.draws ≤ n ∧ n < t.draws ∧
      (∀ i, i < 2 ^ o → t.readParam i = Config.paramDraw n i ∧ t.readRaw i = Config.rawDraw n i) ∧
      (∀ j, j < bs - p → t.readRes j = Config.resDraw n j)) ∧
    (∀ i, 2 ^ o ≤ i → t.readParam i = s.readParam i ∧ t.readRaw i = s.readRaw i) ∧
    (∀ j, bs - p ≤ j → t.readRes j = s.readRes j) ∧
    s.inPos ≤ t.inPos ∧ t.inPos ≤ s.cfg.inBits.length ∧
    { t with param := s.param, raw := s.raw, res := s.res, inPos := s.inPos, draws := s.draws, code := s.code } =
      { s with result := 0, advisory := ⟨false, decide (9 ≤ o)⟩, cvalid := false,
               capOrder := BitVec.ofNat 4 (max s.capOrder.toNat o), prOrder := BitVec.ofNat 4 o, prVariant := v }

/-- R80, R301: an input stream that ends anywhere inside a legal section makes DECODE fail with TruncatedStream. -/
def Obligations.TruncatedSectionFailsDecode : Prop :=
  ∀ (s : State) (sub : Bool) (v : Variant) (bs p o : Nat) (parts : List Part) (pre post : List Bool),
    s.args[0].toNat = bs → s.args[1].toNat = p → s.fhv ≠ .rejected → bs ≤ 65535 → o ≤ 15 →
    (sub = true → o ≤ 8) → bs % 2 ^ o = 0 → p ≤ bs / 2 ^ o →
    (∀ q ∈ parts, LegalPart v q) → parts.map (fun q => q.2.length) = partitionLengths bs p o →
    sectionBits v o parts = pre ++ post → post ≠ [] → s.cfg.inBits.drop s.inPos = pre →
    ∃ t, exec (.decodeSection sub v) s = .next t ∧ t.code = .truncatedStream ∧ t.cvalid = false ∧ t.result = 0

/-- R234, R236, R237, R301: a DECODE whose stream holds whole legal partitions of its section, then whole codes of a Rice
partition with parameter k, then one 0 bit more than (2^32 - 1) >> k, completes with ParameterOutOfRange, whatever
follows. -/
def Obligations.OverflowingCodeFailsDecode : Prop :=
  ∀ (s : State) (sub : Bool) (v : Variant) (bs p o k n : Nat) (parts : List Part) (rs : List Word) (tail : List Bool),
    s.args[0].toNat = bs → s.args[1].toNat = p → s.fhv ≠ .rejected → bs ≤ 65535 → o ≤ 15 →
    (sub = true → o ≤ 8) → bs % 2 ^ o = 0 → p ≤ bs / 2 ^ o →
    (∀ q ∈ parts, LegalPart v q) →
    (∃ later, partitionLengths bs p o = parts.map (fun q => q.2.length) ++ n :: later) →
    k ≤ (if v = .rice then 14 else 30) → rs.length < n →
    s.cfg.inBits.drop s.inPos = sectionBits v o parts ++ bitsOf (paramWidth v) k ++ (rs.map (riceBits k)).flatten ++
      List.replicate ((2 ^ 32 - 1) >>> k + 1) false ++ tail →
    ∃ t, exec (.decodeSection sub v) s = .next t ∧ t.code = .parameterOutOfRange ∧ t.cvalid = false ∧ t.result = 0

/-! ### The operands -/

/-- R102, R103: a command reads no ARG register but those its row lists: with others in the rest, every effect of it is the
same, and the registers are left. -/
def Obligations.CommandsReadOnlyTheirOperands : Prop :=
  ∀ (i : Instr) (s t : State) (args' : Vector Word 8), SameOperands i s { s with args := args' } →
    exec i s = .next t → exec i { s with args := args' } = .next { t with args := args' }

/-! ### StreamInfo and the frame header -/

/-- R251: SI_LOAD. -/
def Obligations.SiLoadChecksThenLoads : Prop :=
  decode 0x00000030 = .ok .siLoad ∧
  ∀ (s : State) (rate ch bps mn mx m : Nat),
    s.args[0].toNat = rate → s.args[1].toNat = ch → s.args[2].toNat = bps → s.args[3].toNat = mn →
    s.args[4].toNat = mx →
    m = (if 1 ≤ rate ∧ rate ≤ 655350 then 0 else 1) + (if 1 ≤ ch ∧ ch ≤ 8 then 0 else 2) +
      (if 4 ≤ bps ∧ bps ≤ 32 then 0 else 4) + (if 16 ≤ mn ∧ mn ≤ 65535 then 0 else 8) +
      (if 16 ≤ mx ∧ mx ≤ 65535 then 0 else 16) + (if mn > mx then 32 else 0) →
    (s.siValid = true → exec .siLoad s = .next { s with
      code := .illegalState, result := 0, advisory := ⟨false, false⟩ }) ∧
    (s.siValid = false → m ≠ 0 → exec .siLoad s = .next { s with
      code := .outOfRange, result := BitVec.ofNat 64 m, advisory := ⟨decide (25 ≤ bps ∧ bps ≤ 32), false⟩ }) ∧
    (s.siValid = false → m = 0 → exec .siLoad s = .next { s with
      code := .ok, result := 0, advisory := ⟨decide (25 ≤ bps ∧ bps ≤ 32), false⟩, siValid := true,
      si := ⟨s.args[0], s.args[1], s.args[2], s.args[3], s.args[4],
        BitVec.ofNat 64 (s.args[6].toNat * 2 ^ 32 + s.args[5].toNat)⟩ })

/-- R253: STREAM_RESET. -/
def Obligations.StreamResetClearsTheStream : Prop :=
  decode 0x00000031 = .ok .streamReset ∧
  ∀ s : State, exec .streamReset s = .next { s with
    si := ⟨0, 0, 0, 0, 0, 0⟩, siValid := false, fhv := .unvalidated, code := .ok, result := 0,
    advisory := ⟨false, false⟩ }

/-- R255: FRAME_BEGIN. -/
def Obligations.FrameBeginRearmsTheValidator : Prop :=
  decode 0x00000032 = .ok .frameBegin ∧
  ∀ s : State, exec .frameBegin s = .next { s with
    fhv := .unvalidated, code := .ok, result := 0, advisory := ⟨false, false⟩ }

/-- R257 to R259, R261: FHV_VALIDATE. -/
def Obligations.FhvValidateReportsEveryFailingField : Prop :=
  (∀ z, decode (if z then 0x00000433 else 0x00000033) = .ok (.fhvValidate z)) ∧
  ∀ (s : State) (z : Bool) (n r c b m : Nat),
    s.args[0].toNat = n → s.args[1].toNat = r → s.args[2].toNat = c → s.args[3].toNat = b →
    m = (if 16 ≤ n ∧ n ≤ 65535 ∧ (s.siValid = true → n ≤ s.si.maxBs.toNat) then 0 else 1) +
      (if (1 ≤ r ∧ r ≤ 655350) ∨ (r = 0 ∧ z = true ∧ s.siValid = true) then 0 else 2) +
      (if 1 ≤ c ∧ c ≤ 8 then 0 else 4) + (if 4 ≤ b ∧ b ≤ 32 then 0 else 8) →
    (s.fhv ≠ .unvalidated → exec (.fhvValidate z) s = .next { s with
      code := .illegalState, result := 0, advisory := ⟨false, false⟩ }) ∧
    (s.fhv = .unvalidated → m ≠ 0 → exec (.fhvValidate z) s = .next { s with
      fhv := .rejected, code := .outOfRange, result := BitVec.ofNat 64 m,
      advisory := ⟨decide (25 ≤ b ∧ b ≤ 32), false⟩ }) ∧
    (s.fhv = .unvalidated → m = 0 → exec (.fhvValidate z) s = .next { s with
      fhv := .validated, code := .ok, result := 0, advisory := ⟨decide (25 ≤ b ∧ b ≤ 32), false⟩ })

/-- R281: SUBSET_CHECK, for every value of the two parameters. -/
def Obligations.SubsetCheckClassifiesTheFields : Prop :=
  decode 0x00000040 = .ok .subsetCheck ∧
  ∀ (s : State) (n r c b lo po m : Nat),
    s.args[0].toNat = n → s.args[1].toNat = r → s.args[2].toNat = c → s.args[3].toNat = b →
    s.args[4].toNat = lo → s.args[5].toNat = po →
    m = (if 16 ≤ n ∧ n ≤ 65535 ∧ n ∈ s.cfg.canonBlockSizes ∧ (r > 48000 ∨ n ≤ 4608) ∧
          (r ≤ 48000 ∨ n ≤ s.cfg.subsetMaxBsHighRate) then 0 else 1) +
      (if 1 ≤ r ∧ r ≤ 655350 then 0 else 2) + (if 1 ≤ c ∧ c ≤ 8 then 0 else 4) +
      (if 4 ≤ b ∧ b ≤ 32 then 0 else 8) + (if lo ≤ 32 ∧ (r > 48000 ∨ lo ≤ 12) then 0 else 16) +
      (if po ≤ 8 then 0 else 32) →
    exec .subsetCheck s = .next { s with
      code := .ok, advisory := ⟨decide (25 ≤ b ∧ b ≤ 32), false⟩,
      result := BitVec.ofNat 64 (m + (if m = 0 then 2 ^ 8 else 0) +
        if (16 ≤ n ∧ n ≤ 65535) ∧ (1 ≤ r ∧ r ≤ 655350) ∧ (1 ≤ c ∧ c ≤ 8) ∧ (4 ≤ b ∧ b ≤ 32) ∧ lo ≤ 32 ∧ po ≤ 15
        then 0 else 2 ^ 9) }

/-- R290: NOP. -/
def Obligations.NopWritesOnlyTheOutputs : Prop :=
  decode 0x00000000 = .ok .nop ∧
  ∀ s : State, exec .nop s = .next { s with code := .ok, result := 0, advisory := ⟨false, false⟩ }

/-! ### Whole-machine rules -/

/-- The invariant holds after reset. -/
def Obligations.ResetMeetsTheInvariant : Prop := State.reset.Inv

/-- The invariant is kept by every step: the memories stay canonical (R45, R48), PR_ORDER <= CAP_ORDER (R44), a loaded
StreamInfo is legal (R41), a StreamInfo not loaded is 0, and the cursor stays in the stream (R80). -/
def Obligations.EveryStepKeepsTheInvariant : Prop :=
  ∀ s t : State, s.Inv → step s = .next t → t.Inv

/-- R34, R44, R310, R340: FATAL is sticky and CAP_ORDER never shrinks, but for the release of the platform's reset; a
command sets FATAL exactly when it completes with IndexOutOfRange. -/
def Obligations.FatalSticksAndCapacityNeverShrinks : Prop :=
  (∀ s t : State, (s.inReset = true → ∀ rest, s.pending ≠ .releaseReset :: rest) → step s = .next t →
    (s.fatal = true → t.fatal = true) ∧ s.capOrder.toNat ≤ t.capOrder.toNat) ∧
  (∀ (s t : State) (i : Instr), exec i s = .next t →
    t.fatal = (s.fatal || decide (t.code = .indexOutOfRange)))

/-- R41, R354: only SI_LOAD with SI_VALID = 0 and STREAM_RESET write the StreamInfo. -/
def Obligations.LoadedStreamInfoIsImmutable : Prop :=
  ∀ (s t : State) (i : Instr), exec i s = .next t → i ≠ .streamReset → (i = .siLoad → s.siValid = true) →
    t.si = s.si ∧ t.siValid = s.siValid

/-- R254: the transitions of FHV_STATE, and that no other command changes it. -/
def Obligations.FhvStateFollowsItsTransitions : Prop :=
  (∀ (s t : State) (rest : List HostEvent), s.pending = .releaseReset :: rest → s.inReset = true → step s = .next t →
    t.fhv = .unvalidated) ∧
  ∀ (s t : State) (i : Instr), exec i s = .next t →
    (i = .streamReset ∨ i = .frameBegin → t.fhv = .unvalidated) ∧
    (∀ z, i = .fhvValidate z → s.fhv = .unvalidated →
      t.fhv = if t.code = .ok then .validated else .rejected) ∧
    (∀ z, i = .fhvValidate z → s.fhv ≠ .unvalidated → t.fhv = s.fhv ∧ t.code = .illegalState) ∧
    (i ≠ .streamReset → i ≠ .frameBegin → (∀ z, i ≠ .fhvValidate z) → t.fhv = s.fhv)

/-- R31, R38, R39, R40, R41, R43 to R50, R222, R232, R254, R310, R340: every piece of state with the commands that may
write it; STATUS.CODE, RESULT and ADVISORY, which every command writes, apart. That no command writes `reply`, `pending`,
`bootDraw` and `draws` (DECODE the last) is said of the model's own fields (log entries 2, 1 and 4). -/
def Obligations.CommandsWriteOnlyTheirState : Prop :=
  ∀ (s t : State) (i : Instr), exec i s = .next t →
    (t.args = s.args ∧ t.cfg = s.cfg ∧ t.inReset = s.inReset ∧ t.bootDraw = s.bootDraw ∧ t.reply = s.reply ∧
      t.pending = s.pending) ∧
    ((∀ sub v, i ≠ .decodeSection sub v) →
      t.inPos = s.inPos ∧ t.draws = s.draws ∧ ∀ j, t.readRes j = s.readRes j) ∧
    ((∀ sub v, i ≠ .encodeSection sub v) → t.outBits = s.outBits) ∧
    ((∀ sub v, i ≠ .decodeSection sub v ∧ i ≠ .encodeSection sub v) → t.cvalid = s.cvalid ∧
      (i ≠ .setPartition → ∀ j, t.readParam j = s.readParam j ∧ t.readRaw j = s.readRaw j) ∧
      ((∀ v, i ≠ .setHeader v) → t.prOrder = s.prOrder ∧ t.prVariant = s.prVariant ∧
        (i ≠ .ensureCapacity → t.capOrder = s.capOrder))) ∧
    (i ≠ .siLoad → i ≠ .streamReset → t.si = s.si ∧ t.siValid = s.siValid) ∧
    (i ≠ .streamReset → i ≠ .frameBegin → (∀ z, i ≠ .fhvValidate z) → t.fhv = s.fhv) ∧
    (i ≠ .setPartition → i ≠ .getPartition → t.fatal = s.fatal)

/-- R49 with R303: CVALID after ENCODE and DECODE; a DECODE refused with IllegalState leaves it (log entry 8). -/
def Obligations.CvalidMarksTheLastCodecCommand : Prop :=
  ∀ (s t : State) (sub : Bool) (v : Variant),
    (exec (.encodeSection sub v) s = .next t → t.cvalid = decide (t.code = .ok)) ∧
    (exec (.decodeSection sub v) s = .next t →
      t.cvalid = if t.code = .illegalState then s.cvalid else decide (t.code = .ok))

/-- R47: the contents after every successful ENCODE and DECODE. -/
def Obligations.CodecLeavesLegalContents : Prop :=
  ∀ (s t : State) (sub : Bool) (v : Variant),
    (exec (.encodeSection sub v) s = .next t ∨ exec (.decodeSection sub v) s = .next t) → t.code = .ok →
    t.ContentsLegal
end

