-- ==== Sys2Proof/Laws/Bits.lean ====
section
/-! SUPPORT. The laws of bit sequences and of reading the input stream. -/

namespace Sys2Proof.Machine

@[simp] theorem length_bitsOf (n v : Nat) : (bitsOf n v).length = n := by
  induction n with
  | zero => rfl
  | succ n ih => simp [bitsOf, ih]

/-- Reading `n` written bits gives back their value, above what was read before. -/
theorem takeBits_bitsOf (n v acc : Nat) (tail : List Bool) :
    takeBits n acc (bitsOf n v ++ tail) = .ok (acc * 2 ^ n + v % 2 ^ n, tail) := by
  induction n generalizing acc with
  | zero => simp [takeBits, bitsOf, Nat.mod_one]
  | succ n ih =>
    simp only [bitsOf, List.cons_append, takeBits, ih]
    have h : v % 2 ^ (n + 1) = (v.testBit n).toNat * 2 ^ n + v % 2 ^ n := by
      rw [Nat.testBit_eq_decide_div_mod_eq, Nat.pow_succ, Nat.mod_mul]
      rcases Nat.mod_two_eq_zero_or_one (v / 2 ^ n) with e | e <;> (simp [e]; try ring)
    rw [h, Nat.pow_succ]
    congr 2
    ring

theorem readBits_bitsOf {n v : Nat} (h : v < 2 ^ n) (pos : Nat) (tail : List Bool) :
    readBits n ⟨pos, bitsOf n v ++ tail⟩ = .ok (v, ⟨pos + n, tail⟩) := by
  simp [readBits, takeBits_bitsOf, Nat.mod_eq_of_lt h]

/-- Everything a successful read does: the next `n` bits leave the stream, and their value lies below 2^n. -/
theorem takeBits_ok {n acc : Nat} {bs rest : List Bool} {v : Nat} (h : takeBits n acc bs = .ok (v, rest)) :
    ∃ pre, bs = pre ++ rest ∧ pre.length = n ∧ acc * 2 ^ n ≤ v ∧ v < (acc + 1) * 2 ^ n := by
  induction n generalizing acc bs with
  | zero =>
    simp only [takeBits, Except.ok.injEq, Prod.mk.injEq] at h
    exact ⟨[], by simp [h.2], rfl, by simp [h.1], by simp [h.1]⟩
  | succ n ih =>
    cases bs with
    | nil => simp [takeBits] at h
    | cons b bs =>
      obtain ⟨pre, hb, hl, hlo, hhi⟩ := ih h
      refine ⟨b :: pre, by simp [hb], by simp [hl], ?_, ?_⟩ <;> cases b <;>
        simp only [Bool.toNat_false, Bool.toNat_true, Nat.pow_succ] at * <;> nlinarith [Nat.two_pow_pos n]

/-- A read fails exactly when too few bits remain, and then with end of stream. -/
theorem takeBits_error {n acc : Nat} {bs : List Bool} {e : ReadFail} :
    takeBits n acc bs = .error e ↔ e = .eof ∧ bs.length < n := by
  induction n generalizing acc bs with
  | zero => simp [takeBits]
  | succ n ih =>
    cases bs with
    | nil => simp [takeBits, eq_comm]
    | cons b bs => simp [takeBits, ih]

theorem readBits_ok {n : Nat} {rd rd' : Reader} {v : Nat} (h : readBits n rd = .ok (v, rd')) :
    ∃ pre, rd.rest = pre ++ rd'.rest ∧ pre.length = n ∧ rd'.pos = rd.pos + n ∧ v < 2 ^ n := by
  simp only [readBits] at h
  split at h
  · rename_i v' rest heq
    obtain ⟨pre, h1, h2, -, h4⟩ := takeBits_ok heq
    simp only [Except.ok.injEq, Prod.mk.injEq] at h
    obtain ⟨rfl, rfl⟩ := h
    exact ⟨pre, h1, h2, rfl, by simpa using h4⟩
  · simp at h

theorem readBits_error {n : Nat} {rd : Reader} {e : ReadFail} :
    readBits n rd = .error e ↔ e = .eof ∧ rd.rest.length < n := by
  rw [← takeBits_error (acc := 0)]
  simp only [readBits]
  split <;> simp_all

end Sys2Proof.Machine
end

