-- ==== Sys2Proof/Laws/Codec.lean ====
section
/-! SUPPORT. The laws of the codec's functions: the sign fold and the widths as numbers, and that each reader takes back
what its writer wrote. -/

namespace Sys2Proof.Machine

/-! ### Sign fold (R204, R205) -/

theorem sshiftRight_31 (r : Word) : r.sshiftRight 31 = if r.msb then BitVec.allOnes 32 else 0 := by
  apply BitVec.eq_of_getLsbD_eq
  intro i hi
  have e : (r.sshiftRight 31).getLsbD i = r.msb := by
    rw [BitVec.getLsbD_sshiftRight]
    by_cases h0 : i = 0
    · subst h0; simp [BitVec.msb_eq_getLsbD_last]
    · have h1 : ¬ 31 + i < 32 := by omega
      have h2 : ¬ 32 ≤ i := by omega
      simp only [h1, h2, if_false, decide_false, Bool.not_false, Bool.true_and]
  rw [e]
  cases r.msb
  · simp
  · rw [if_pos rfl, BitVec.getLsbD_allOnes, decide_eq_true hi]

theorem zigzag_toNat (r : Word) :
    (zigzag r).toNat = if r.msb then 2 ^ 33 - 1 - 2 * r.toNat else 2 * r.toNat := by
  have hr := r.isLt
  simp only [zigzag, sshiftRight_31]
  cases h : r.msb
  · rw [BitVec.msb_eq_false_iff_two_mul_lt] at h
    simp [BitVec.toNat_shiftLeft, Nat.shiftLeft_eq]; omega
  · rw [BitVec.msb_eq_true_iff_two_mul_ge] at h
    simp only [if_true, BitVec.xor_allOnes, BitVec.toNat_not, BitVec.toNat_shiftLeft, Nat.shiftLeft_eq]
    omega

theorem unzigzag_toNat (u : Word) :
    (unzigzag u).toNat = if u.toNat % 2 = 0 then u.toNat / 2 else 2 ^ 32 - 1 - u.toNat / 2 := by
  have hu := u.isLt
  have h1 : u &&& 1 = if u.toNat % 2 = 0 then 0#32 else 1#32 := by
    apply BitVec.eq_of_toNat_eq
    rw [BitVec.toNat_and]
    show u.toNat &&& 1 = _
    rw [Nat.and_one_is_mod]
    split <;> rename_i h <;> simp [h]; omega
  simp only [unzigzag, h1]
  split <;> rename_i h
  · simp [Nat.shiftRight_eq_div_pow]
  · have : (0 - 1#32) = BitVec.allOnes 32 := by decide
    rw [this, BitVec.xor_allOnes, BitVec.toNat_not]
    simp [Nat.shiftRight_eq_div_pow]

/-- The sign fold loses nothing (R205). -/
@[simp] theorem unzigzag_zigzag (r : Word) : unzigzag (zigzag r) = r := by
  apply BitVec.eq_of_toNat_eq
  have hr := r.isLt
  rw [unzigzag_toNat, zigzag_toNat]
  cases h : r.msb
  · simp
  · rw [BitVec.msb_eq_true_iff_two_mul_ge] at h
    simp only [if_true]
    split <;> omega

/-! ### Widths (R15, R206) -/

theorem bitlen_le_iff {a n : Nat} : bitlen a ≤ n ↔ a < 2 ^ n := by
  by_cases h : a = 0
  · subst h; simp [bitlen]
  · simp [bitlen, h, Nat.log2_lt h]

/-- `width` is the least width whose two's-complement field holds the residual (R206). -/
theorem width_le_iff {r : Word} {w : Nat} : width r ≤ w ↔ FitsWidth w r := by
  have hr := r.isLt
  have zero_iff : r = 0 ↔ r.toNat = 0 := by
    constructor
    · rintro rfl; rfl
    · intro h; exact BitVec.eq_of_toNat_eq (by simpa using h)
  by_cases h0 : r = 0
  · subst h0
    have : 0 < (2 : Int) ^ (w - 1) := by positivity
    simp only [width, if_true, FitsWidth, Nat.zero_le, true_iff]
    split
    · trivial
    · simp only [BitVec.ofNat_eq_ofNat, BitVec.toInt_zero]; omega
  · cases w with
    | zero =>
      simp only [FitsWidth, if_true, h0, iff_false, width, if_false]
      split <;> omega
    | succ n =>
      have hn : ((2 ^ n : Nat) : Int) = (2 : Int) ^ n := by push_cast; rfl
      simp only [width, h0, if_false, FitsWidth, Nat.succ_ne_zero, Nat.succ_sub_one]
      cases h : r.msb
      · simp only [Bool.false_eq_true, if_false, Nat.add_le_add_iff_right, bitlen_le_iff,
          BitVec.toInt_eq_toNat_of_msb h]
        omega
      · have hm := BitVec.msb_eq_true_iff_two_mul_ge.1 h
        simp only [if_true, Nat.add_le_add_iff_right, bitlen_le_iff, BitVec.toNat_not,
          BitVec.toInt_eq_msb_cond, h]
        omega

theorem le_foldl_max (rs : List Word) (acc w : Nat) :
    rs.foldl (fun acc r => max acc (width r)) acc ≤ w ↔ acc ≤ w ∧ ∀ r ∈ rs, width r ≤ w := by
  induction rs generalizing acc with
  | nil => simp
  | cons r rs ih => simp only [List.foldl_cons, ih, List.forall_mem_cons, max_le_iff, and_assoc]

theorem rawWidth_le_iff {rs : List Word} {w : Nat} : rawWidth rs ≤ w ↔ ∀ r ∈ rs, width r ≤ w := by
  simp [rawWidth, le_foldl_max]

/-! ### Readers take back what writers wrote (R112 to R116, R234) -/

theorem unaryRun_zeros {limit q n : Nat} (h : q + n ≤ limit) (tail : List Bool) :
    unaryRun limit q (List.replicate n false ++ true :: tail) = .ok (q + n, tail) := by
  induction n generalizing q with
  | zero => simp [unaryRun]
  | succ n ih =>
    have h1 : ¬ q + 1 > limit := by omega
    simp only [List.replicate_succ, List.cons_append, unaryRun, h1, if_false]
    rw [ih (by omega)]
    congr 2; omega

@[simp] theorem length_riceBits (k : Nat) (r : Word) :
    (riceBits k r).length = ((zigzag r).toNat >>> k) + 1 + k := by
  simp [riceBits]; omega

theorem riceRead_riceBits (k : Nat) (r : Word) (pos : Nat) (tail : List Bool) :
    riceRead k ⟨pos, riceBits k r ++ tail⟩ = .ok (r, ⟨pos + (riceBits k r).length, tail⟩) := by
  have hu := (zigzag r).isLt
  have hq : 0 + ((zigzag r).toNat >>> k) ≤ (2 ^ 32 - 1) >>> k := by
    rw [Nat.zero_add, Nat.shiftRight_eq_div_pow, Nat.shiftRight_eq_div_pow]
    exact Nat.div_le_div_right (by omega)
  have hm : (zigzag r).toNat % 2 ^ k < 2 ^ k := Nat.mod_lt _ (Nat.two_pow_pos k)
  have he : ((zigzag r).toNat >>> k) * 2 ^ k + (zigzag r).toNat % 2 ^ k = (zigzag r).toNat := by
    rw [Nat.shiftRight_eq_div_pow, Nat.mul_comm]; exact Nat.div_add_mod _ _
  simp only [riceRead, riceBits, List.append_assoc, List.cons_append, unaryRun_zeros hq, Nat.zero_add,
    readBits_bitsOf hm, he, BitVec.ofNat_toNat, BitVec.setWidth_eq, unzigzag_zigzag]
  congr 3
  simp; omega

theorem signExtend_setWidth {w : Nat} {r : Word} (hw : w ≤ 32) (h : FitsWidth w r) :
    (r.setWidth w).signExtend 32 = r := by
  apply BitVec.eq_of_toInt_eq
  rw [BitVec.toInt_signExtend_of_le hw, BitVec.toInt_setWidth]
  simp only [FitsWidth] at h
  cases w with
  | zero => simp only [if_true] at h; subst h; simp
  | succ n =>
    simp only [Nat.succ_ne_zero, if_false, Nat.succ_sub_one] at h
    have hp : ((2 ^ (n + 1) : Nat) : Int) = 2 * (2 : Int) ^ n := by push_cast; ring
    have e : (r.toNat : Int).bmod (2 ^ (n + 1)) = r.toInt.bmod (2 ^ (n + 1)) := by
      rw [BitVec.toInt_eq_msb_cond]
      split
      · have hd : (2 : Int) ^ 32 = ((2 ^ (n + 1) : Nat) : Int) * (2 : Int) ^ (31 - n) := by
          push_cast; rw [← pow_add, show n + 1 + (31 - n) = 32 by omega]; norm_num
        have : ((r.toNat : Int) - ((2 ^ 32 : Nat) : Int)) =
            (r.toNat : Int) + ((2 ^ (n + 1) : Nat) : Int) * (-(2 : Int) ^ (31 - n)) := by
          push_cast at hd ⊢; rw [hd]; ring
        rw [this, Int.add_mul_bmod_self_left]
      · rfl
    rw [e]
    apply Int.bmod_eq_of_le <;> rw [hp] <;> omega

theorem length_rawBits (w : Nat) (r : Word) : (rawBits w r).length = w := by simp [rawBits]

theorem rawRead_rawBits {w : Nat} {r : Word} (hw : w ≤ 32) (h : FitsWidth w r) (pos : Nat) (tail : List Bool) :
    rawRead w ⟨pos, rawBits w r ++ tail⟩ = .ok (r, ⟨pos + w, tail⟩) := by
  have e : BitVec.ofNat w (r.toNat % 2 ^ w) = r.setWidth w := by
    apply BitVec.eq_of_toNat_eq; simp
  simp only [rawRead, rawBits, readBits_bitsOf (Nat.mod_lt _ (Nat.two_pow_pos w)), e, signExtend_setWidth hw h]

/-- Reading the items written one after the other gives them back, when reading one item does. -/
theorem readMany_flatten {α : Type} (item : Reader → Except ReadFail (α × Reader)) (bits : α → List Bool)
    (as : List α) (h : ∀ a ∈ as, ∀ pos tail, item ⟨pos, bits a ++ tail⟩ = .ok (a, ⟨pos + (bits a).length, tail⟩))
    (pos : Nat) (tail : List Bool) :
    readMany item as.length ⟨pos, (as.map bits).flatten ++ tail⟩ =
      .ok (as, ⟨pos + ((as.map bits).flatten).length, tail⟩) := by
  induction as generalizing pos with
  | nil => simp [readMany]
  | cons a as ih =>
    simp only [List.length_cons, readMany, List.map_cons, List.flatten_cons, List.append_assoc,
      h a (List.mem_cons_self ..), ih (fun b hb => h b (List.mem_cons_of_mem _ hb)), List.length_append, Nat.add_assoc]

theorem escapeSentinel_lt (v : Variant) : escapeSentinel v < 2 ^ paramWidth v := by cases v <;> decide

/-- A legal partition's bits are read back as that partition (R111, R230). -/
theorem readPart_partBits {v : Variant} {p : Part} (h : LegalPart v p) (pos : Nat) (tail : List Bool) :
    readPart v p.2.length ⟨pos, partBits v p.1 p.2 ++ tail⟩ =
      .ok (p, ⟨pos + (partBits v p.1 p.2).length, tail⟩) := by
  obtain ⟨c, rs⟩ := p
  cases c with
  | rice k =>
    simp only [LegalPart] at h
    have hk : k < 2 ^ paramWidth v := lt_trans h (escapeSentinel_lt v)
    simp only [readPart, readCode, partBits, List.append_assoc, readBits_bitsOf hk, Nat.ne_of_lt h, if_false,
      residualRead, readMany_flatten (riceRead k) (riceBits k) rs (fun r _ => riceRead_riceBits k r)]
    congr 3
    simp only [List.length_append, length_bitsOf]; omega
  | escaped w =>
    simp only [LegalPart] at h
    have hw : w < 2 ^ 5 := by omega
    simp only [readPart, readCode, partBits, List.append_assoc, readBits_bitsOf (escapeSentinel_lt v), if_true,
      readBits_bitsOf hw, residualRead]
    rw [readMany_flatten (rawRead w) (rawBits w) rs
      (fun r hr pos tail => by rw [length_rawBits]; exact rawRead_rawBits (by omega) (h.2 r hr) pos tail)]
    simp only [List.length_append, length_bitsOf]
    congr 3
    omega

/-- Legal partitions' bits are read back as those partitions (R230, R238). -/
theorem readParts_partBits {v : Variant} (parts : List Part) (h : ∀ p ∈ parts, LegalPart v p) (pos : Nat)
    (tail : List Bool) :
    readParts v (parts.map (fun p => p.2.length))
        ⟨pos, (parts.map (fun p => partBits v p.1 p.2)).flatten ++ tail⟩ =
      .ok (parts, ⟨pos + ((parts.map (fun p => partBits v p.1 p.2)).flatten).length, tail⟩) := by
  induction parts generalizing pos with
  | nil => simp [readParts]
  | cons p parts ih =>
    simp only [List.map_cons, readParts, List.flatten_cons, List.append_assoc,
      readPart_partBits (h p (List.mem_cons_self ..)), ih (fun q hq => h q (List.mem_cons_of_mem _ hq)),
      List.length_append, Nat.add_assoc]


/-! ### Where a read fails behind legal codes (R230, R234) -/

theorem unaryRun_overflow {limit q n : Nat} (hq : q ≤ limit) (h : q + n = limit + 1) (tail : List Bool) :
    unaryRun limit q (List.replicate n false ++ tail) = .error .overflow := by
  induction n generalizing q with
  | zero => omega
  | succ n ih =>
    simp only [List.replicate_succ, List.cons_append, unaryRun]
    split
    · rfl
    · exact ih (by omega) (by omega)

/-- One 0 bit more than the limit of R234 overflows, whatever follows. -/
theorem riceRead_overflow (k pos : Nat) (tail : List Bool) :
    riceRead k ⟨pos, List.replicate ((2 ^ 32 - 1) >>> k + 1) false ++ tail⟩ = .error .overflow := by
  unfold riceRead
  generalize (2 ^ 32 - 1) >>> k = limit
  simp only [unaryRun_overflow (Nat.zero_le limit) (Nat.zero_add _) tail]

/-- Items written one after the other and then one that fails: the whole read fails so. -/
theorem readMany_error {α : Type} (item : Reader → Except ReadFail (α × Reader)) (bits : α → List Bool) (as : List α)
    (h : ∀ a ∈ as, ∀ pos tail, item ⟨pos, bits a ++ tail⟩ = .ok (a, ⟨pos + (bits a).length, tail⟩))
    {bad : List Bool} {e : ReadFail} (he : ∀ pos, item ⟨pos, bad⟩ = .error e) {n : Nat} (hn : as.length < n)
    (pos : Nat) : readMany item n ⟨pos, (as.map bits).flatten ++ bad⟩ = .error e := by
  induction as generalizing pos n with
  | nil =>
    obtain ⟨n, rfl⟩ : ∃ m, n = m + 1 := ⟨n - 1, by simp at hn; omega⟩
    simp [readMany, he]
  | cons a as ih =>
    obtain ⟨n, rfl⟩ : ∃ m, n = m + 1 := ⟨n - 1, by simp at hn; omega⟩
    simp only [List.forall_mem_cons] at h
    simp only [readMany, List.map_cons, List.flatten_cons, List.append_assoc, h.1]
    rw [ih h.2 (by simpa using hn)]

/-- A Rice partition whose code behind the residuals `rs` overflows. -/
theorem readPart_overflow {v : Variant} {k n : Nat} {rs : List Word} (hk : k < escapeSentinel v) (hn : rs.length < n)
    (pos : Nat) (tail : List Bool) :
    readPart v n ⟨pos, bitsOf (paramWidth v) k ++ ((rs.map (riceBits k)).flatten ++
      (List.replicate ((2 ^ 32 - 1) >>> k + 1) false ++ tail))⟩ = .error .overflow := by
  have hlt : k < 2 ^ paramWidth v := Nat.lt_trans hk (escapeSentinel_lt v)
  simp only [readPart, readCode, readBits_bitsOf hlt, if_neg (Nat.ne_of_lt hk)]
  simp only [readMany_error (residualRead (.rice k)) (riceBits k) rs (fun r _ => riceRead_riceBits k r)
    (fun pos => riceRead_overflow k pos tail) hn]

/-- Legal partitions and then one that fails: the whole read fails so, whatever partitions were to follow. -/
theorem readParts_error {v : Variant} (parts : List Part) (h : ∀ p ∈ parts, LegalPart v p) {bad : List Bool} {n : Nat}
    {e : ReadFail} (he : ∀ pos, readPart v n ⟨pos, bad⟩ = .error e) (later : List Nat) (pos : Nat) :
    readParts v (parts.map (fun p => p.2.length) ++ n :: later)
      ⟨pos, (parts.map (fun p => partBits v p.1 p.2)).flatten ++ bad⟩ = .error e := by
  induction parts generalizing pos with
  | nil => simp [readParts, he]
  | cons p parts ih =>
    simp only [List.forall_mem_cons] at h
    simp only [readParts, List.map_cons, List.cons_append, List.flatten_cons, List.append_assoc, readPart_partBits h.1]
    rw [ih h.2]

end Sys2Proof.Machine
end

