-- ==== Sys2Proof/Laws/Decode.lean ====
section
/-! SUPPORT. The decoder and the encoder: what the decoder reads, as finite facts over the legal words. -/

namespace Sys2Proof

/-- A word whose bits [31:11] are 0 is one of 2048. -/
theorem toNat_lt_of_reservedZero {w : Word} (h : CommandWord.reservedZero w = true) : w.toNat < 2048 := by
  have h1 : w.extractLsb' 11 21 = 0 := by simpa [CommandWord.reservedZero] using h
  have h2 := congrArg BitVec.toNat h1
  simp only [BitVec.extractLsb'_toNat, Nat.shiftRight_eq_div_pow, BitVec.ofNat_eq_ofNat, BitVec.toNat_ofNat,
    Nat.zero_mod] at h2
  have := w.isLt
  omega

/-- Every row asks bits [31:11] to be 0 (R100, R102). -/
theorem reservedZero_of_selects {r : OpcodeRow} (hr : r ∈ opcodeRows) {w : Word} (h : r.selects w = true) :
    CommandWord.reservedZero w = true := by
  have hm : r.mask &&& 0xFFFFF800 = 0xFFFFF800 ∧ r.pattern &&& 0xFFFFF800 = 0 := by
    revert r
    simp [opcodeRows, limitRows, codecRows, streamRows]
  have hs : w &&& r.mask = r.pattern := by simpa [OpcodeRow.selects] using h
  have h0 : w &&& 0xFFFFF800 = 0 := by
    calc w &&& 0xFFFFF800 = w &&& (r.mask &&& 0xFFFFF800) := by rw [hm.1]
      _ = (w &&& r.mask) &&& 0xFFFFF800 := by rw [BitVec.and_assoc]
      _ = 0 := by rw [hs, hm.2]
  have h1 : (w &&& 0xFFFFF800).extractLsb' 11 21 = w.extractLsb' 11 21 := by
    rw [BitVec.extractLsb'_and]
    have : (0xFFFFF800 : Word).extractLsb' 11 21 = BitVec.allOnes 21 := by decide
    rw [this, BitVec.and_allOnes]
  have h2 : w.extractLsb' 11 21 = 0 := by rw [← h1, h0]; decide
  simp [CommandWord.reservedZero, h2]

end Sys2Proof
end

