-- ==== Sys2Proof/Laws/Memory.lean ====
section
/-! SUPPORT. The laws of a memory: what a write leaves each entry, and that every write keeps the canonical form. -/

namespace Sys2Proof.Machine.Memory

variable {w : Nat}

theorem find_append (a b : Memory w) (i : Nat) : find (a ++ b) i = (find a i).or (find b i) := by
  induction a with
  | nil => simp [find]
  | cons c a ih =>
    obtain ⟨k, v⟩ := c
    simp only [List.cons_append, find]
    split <;> simp [ih]

theorem find_filter_of_pos (p : Nat → Bool) (m : Memory w) {i : Nat} (h : p i = true) :
    find (m.filter (fun c => p c.1)) i = find m i := by
  induction m with
  | nil => rfl
  | cons c m ih =>
    obtain ⟨k, v⟩ := c
    by_cases hk : k = i
    · subst hk; simp [find, h]
    · by_cases hp : p k = true <;> simp [find, hp, hk, ih]

theorem find_filter_of_neg (p : Nat → Bool) (m : Memory w) {i : Nat} (h : p i = false) :
    find (m.filter (fun c => p c.1)) i = none := by
  induction m with
  | nil => rfl
  | cons c m ih =>
    obtain ⟨k, v⟩ := c
    by_cases hk : k = i
    · subst hk; simp [h, ih]
    · by_cases hp : p k = true <;> simp [find, hp, hk, ih]

theorem find_cells (base : Nat) (vs : List (BitVec w)) (i : Nat) :
    find (cells base vs) i = if base ≤ i then vs[i - base]? else none := by
  induction vs generalizing base with
  | nil => simp [cells, find]
  | cons v vs ih =>
    simp only [cells, find, ih]
    by_cases h : base = i
    · subst h; simp
    · by_cases h' : base ≤ i
      · have hlt : base + 1 ≤ i := by omega
        have e : i - base = (i - (base + 1)) + 1 := by omega
        simp only [h, hlt, h', e, if_true, if_false, List.getElem?_cons_succ]
      · have hlt : ¬ base + 1 ≤ i := by omega
        simp [h, hlt, h']

/-- Everything a run of writes does: inside the run the values written, outside it what was there. -/
theorem find_writeRun (base : Nat) (vs : List (BitVec w)) (m : Memory w) (i : Nat) :
    find (writeRun base vs m) i =
      if base ≤ i ∧ i < base + vs.length then vs[i - base]? else find m i := by
  simp only [writeRun, find_append, find_cells]
  by_cases h₁ : i < base
  · rw [find_filter_of_pos (fun k => decide (k < base)) m (by simpa using h₁),
      find_filter_of_neg (fun k => decide (base + vs.length ≤ k)) m (by simp; omega)]
    have : ¬ base ≤ i := by omega
    simp [this]
  · rw [find_filter_of_neg (fun k => decide (k < base)) m (by simpa using h₁)]
    have hb : base ≤ i := by omega
    by_cases h₂ : i < base + vs.length
    · rw [find_filter_of_neg (fun k => decide (base + vs.length ≤ k)) m (by simp; omega)]
      simp [hb, h₂]
    · rw [find_filter_of_pos (fun k => decide (base + vs.length ≤ k)) m (by simp; omega)]
      have : vs[i - base]? = none := List.getElem?_eq_none (by omega)
      simp [h₂, hb, this]

theorem read_writeRun_inside (d : Nat → BitVec w) (base : Nat) (vs : List (BitVec w)) (m : Memory w) {i : Nat}
    (h : i < vs.length) : read d (writeRun base vs m) (base + i) = vs[i] := by
  have : base ≤ base + i ∧ base + i < base + vs.length := by omega
  simp [read, find_writeRun, this, h]

theorem read_writeRun_outside (d : Nat → BitVec w) (base : Nat) (vs : List (BitVec w)) (m : Memory w) {i : Nat}
    (h : i < base ∨ base + vs.length ≤ i) : read d (writeRun base vs m) i = read d m i := by
  have : ¬ (base ≤ i ∧ i < base + vs.length) := by omega
  simp [read, find_writeRun, this]

@[simp] theorem read_write_same (d : Nat → BitVec w) (i : Nat) (v : BitVec w) (m : Memory w) :
    read d (write i v m) i = v := by
  simpa [write] using read_writeRun_inside d i [v] m (i := 0) (by simp)

theorem read_write_other (d : Nat → BitVec w) {i j : Nat} (v : BitVec w) (m : Memory w) (h : j ≠ i) :
    read d (write i v m) j = read d m j :=
  read_writeRun_outside d i [v] m (by simp; omega)

/-! ### The canonical form is kept -/

theorem mem_cells {base : Nat} {vs : List (BitVec w)} {c : Nat × BitVec w} (h : c ∈ cells base vs) :
    base ≤ c.1 ∧ c.1 < base + vs.length := by
  induction vs generalizing base with
  | nil => simp [cells] at h
  | cons v vs ih =>
    rcases List.mem_cons.1 h with rfl | h
    · simp
    · have := ih h
      simp only [List.length_cons]; omega

theorem cells_rising (base : Nat) (vs : List (BitVec w)) :
    (cells base vs).Pairwise (fun a b => a.1 < b.1) := by
  induction vs generalizing base with
  | nil => simp [cells]
  | cons v vs ih =>
    refine List.pairwise_cons.2 ⟨fun c hc => ?_, ih (base + 1)⟩
    have := mem_cells hc
    simp only; omega

theorem wf_nil (n : Nat) : wf n ([] : Memory w) := ⟨List.Pairwise.nil, by simp⟩

theorem wf_writeRun {n base : Nat} {vs : List (BitVec w)} {m : Memory w} (hm : wf n m) (h : base + vs.length ≤ n) :
    wf n (writeRun base vs m) := by
  obtain ⟨hp, hb⟩ := hm
  constructor
  · simp only [writeRun, List.pairwise_append]
    refine ⟨⟨hp.filter _, cells_rising base vs, ?_⟩, hp.filter _, ?_⟩
    · intro a ha b hb'
      have := (List.mem_filter.1 ha).2
      have := mem_cells hb'
      simp at *; omega
    · intro a ha b hb'
      have := (List.mem_filter.1 hb').2
      rcases List.mem_append.1 ha with ha | ha
      · have := (List.mem_filter.1 ha).2
        simp at *; omega
      · have := mem_cells ha
        simp at *; omega
  · intro c hc
    simp only [writeRun, List.mem_append, List.mem_filter] at hc
    rcases hc with (⟨hc, -⟩ | hc) | ⟨hc, -⟩
    · exact hb c hc
    · have := mem_cells hc; omega
    · exact hb c hc

theorem wf_write {n i : Nat} {v : BitVec w} {m : Memory w} (hm : wf n m) (h : i < n) : wf n (write i v m) :=
  wf_writeRun hm (by simpa using h)

/-- The memories are canonical at reset. -/
theorem wf_reset : wf 32768 State.reset.param ∧ wf 32768 State.reset.raw ∧ wf 65536 State.reset.res :=
  ⟨wf_nil _, wf_nil _, wf_nil _⟩

end Sys2Proof.Machine.Memory
end

