-- ==== Sys2Proof/Laws/Reader.lean ====
section
/-! SUPPORT. What a reader of the input stream can do: it takes bits from the front and counts them (`Advances`), and it
never looks past the bits it takes (`IgnoresTail`). One lemma of each a reader. -/

namespace Sys2Proof.Machine

/-! ### A reader moves forward over the bits it takes (R80) -/

/-- `rd'` stands further on in the same stream: no bit is lost or made. -/
def Reader.Advances (rd rd' : Reader) : Prop :=
  rd'.pos + rd'.rest.length = rd.pos + rd.rest.length ∧ rd.pos ≤ rd'.pos

theorem Reader.Advances.trans {a b c : Reader} (h₁ : a.Advances b) (h₂ : b.Advances c) : a.Advances c :=
  ⟨h₂.1.trans h₁.1, h₁.2.trans h₂.2⟩

theorem readBits_advances {n v : Nat} {rd rd' : Reader} (h : readBits n rd = .ok (v, rd')) : rd.Advances rd' := by
  obtain ⟨pre, h₁, h₂, h₃, -⟩ := readBits_ok h
  refine ⟨?_, by omega⟩
  rw [h₁, List.length_append]; omega

/-- The unary part takes its zeros and the terminator (R234). -/
theorem unaryRun_ok {limit q v : Nat} {bs rest : List Bool} (h : unaryRun limit q bs = .ok (v, rest)) :
    q ≤ v ∧ bs.length = (v - q) + 1 + rest.length := by
  induction bs generalizing q with
  | nil => simp [unaryRun] at h
  | cons b bs ih =>
    cases b with
    | true =>
      simp only [unaryRun, Except.ok.injEq, Prod.mk.injEq] at h
      obtain ⟨rfl, rfl⟩ := h
      simp only [List.length_cons]; omega
    | false =>
      simp only [unaryRun] at h
      split at h
      · cases h
      · have := ih h
        simp only [List.length_cons]; omega

theorem riceRead_advances {k : Nat} {r : Word} {rd rd' : Reader} (h : riceRead k rd = .ok (r, rd')) :
    rd.Advances rd' := by
  simp only [riceRead] at h
  split at h
  · cases h
  · rename_i hu
    have := unaryRun_ok hu
    split at h
    · cases h
    · rename_i hb
      cases h
      have := readBits_advances hb
      simp only [Reader.Advances] at *; omega

theorem residualRead_advances {c : PartCode} {r : Word} {rd rd' : Reader} (h : residualRead c rd = .ok (r, rd')) :
    rd.Advances rd' := by
  cases c with
  | rice k => exact riceRead_advances h
  | escaped w =>
    simp only [residualRead, rawRead] at h
    split at h
    · cases h
    · rename_i hb
      cases h
      exact readBits_advances hb

/-- Reading `n` residuals gives `n` of them. -/
theorem readMany_ok {c : PartCode} {n : Nat} {rs : List Word} {rd rd' : Reader}
    (h : readMany (residualRead c) n rd = .ok (rs, rd')) : rd.Advances rd' ∧ rs.length = n := by
  induction n generalizing rd rs with
  | zero =>
    simp only [readMany, Except.ok.injEq, Prod.mk.injEq] at h
    obtain ⟨rfl, rfl⟩ := h
    exact ⟨⟨rfl, le_rfl⟩, rfl⟩
  | succ n ih =>
    simp only [readMany] at h
    split at h
    · cases h
    · rename_i h₁
      split at h
      · cases h
      · rename_i h₂
        cases h
        have := ih h₂
        exact ⟨(residualRead_advances h₁).trans this.1, by simp [this.2]⟩

/-- A Rice code that is read has a parameter below the sentinel (R233). -/
theorem readCode_ok {v : Variant} {c : PartCode} {rd rd' : Reader} (h : readCode v rd = .ok (c, rd')) :
    rd.Advances rd' ∧ ∀ k, c = .rice k → k < escapeSentinel v := by
  simp only [readCode] at h
  split at h
  · cases h
  · rename_i f rd₁ h₁
    split at h
    · split at h
      · cases h
      · rename_i h₂
        cases h
        exact ⟨(readBits_advances h₁).trans (readBits_advances h₂), fun k hk => by cases hk⟩
    · rename_i hne
      cases h
      refine ⟨readBits_advances h₁, fun k hk => ?_⟩
      cases hk
      obtain ⟨-, -, -, -, hlt⟩ := readBits_ok h₁
      simp only [escapeSentinel] at *; omega

theorem readPart_ok {v : Variant} {n : Nat} {p : Part} {rd rd' : Reader} (h : readPart v n rd = .ok (p, rd')) :
    rd.Advances rd' ∧ p.2.length = n ∧ ∀ k, p.1 = .rice k → k < escapeSentinel v := by
  simp only [readPart] at h
  split at h
  · cases h
  · rename_i h₁
    split at h
    · cases h
    · rename_i h₂
      cases h
      have := readMany_ok h₂
      exact ⟨(readCode_ok h₁).1.trans this.1, this.2, (readCode_ok h₁).2⟩

/-- The partitions that are read have the lengths asked for, and their Rice parameters lie below the sentinel. -/
theorem readParts_ok {v : Variant} {lens : List Nat} {ps : List Part} {rd rd' : Reader}
    (h : readParts v lens rd = .ok (ps, rd')) :
    rd.Advances rd' ∧ ps.map (fun p => p.2.length) = lens ∧
      ∀ p ∈ ps, ∀ k, p.1 = .rice k → k < escapeSentinel v := by
  induction lens generalizing rd ps with
  | nil =>
    simp only [readParts, Except.ok.injEq, Prod.mk.injEq] at h
    obtain ⟨rfl, rfl⟩ := h
    exact ⟨⟨rfl, le_rfl⟩, rfl, by simp⟩
  | cons n lens ih =>
    simp only [readParts] at h
    split at h
    · cases h
    · rename_i h₁
      split at h
      · cases h
      · rename_i h₂
        cases h
        have hp := readPart_ok h₁
        have hps := ih h₂
        refine ⟨hp.1.trans hps.1, by simp [hp.2.1, hps.2.1], fun p hm => ?_⟩
        rcases List.mem_cons.1 hm with rfl | hm
        · exact hp.2.2
        · exact hps.2.2 p hm

/-! ### A reader never looks past the bits it takes -/

/-- Bits behind those a read looked at change neither what it gives nor an overflow it reports; only an end of stream can
turn into something else. -/
def IgnoresTail {α : Type} (f : Reader → Except ReadFail (α × Reader)) : Prop :=
  ∀ pos pre post,
    (∀ a rd', f ⟨pos, pre⟩ = .ok (a, rd') → f ⟨pos, pre ++ post⟩ = .ok (a, ⟨rd'.pos, rd'.rest ++ post⟩)) ∧
    (f ⟨pos, pre⟩ = .error .overflow → f ⟨pos, pre ++ post⟩ = .error .overflow)

/-- A reader `h` that runs `f` and then, on what `f` gave, `g`. -/
theorem IgnoresTail.bind {α β : Type} {h : Reader → Except ReadFail (β × Reader)}
    {f : Reader → Except ReadFail (α × Reader)} {g : α → Reader → Except ReadFail (β × Reader)}
    (hf : IgnoresTail f) (hg : ∀ a, IgnoresTail (g a)) (he : ∀ rd e, f rd = .error e → h rd = .error e)
    (ho : ∀ rd a r, f rd = .ok (a, r) → h rd = g a r) : IgnoresTail h := by
  intro pos pre post
  have := hf pos pre post
  cases hh : f ⟨pos, pre⟩ with
  | error e =>
    rw [he _ _ hh]
    refine ⟨by simp, fun hx => ?_⟩
    cases hx
    exact he _ _ (this.2 hh)
  | ok p =>
    obtain ⟨a, q, r⟩ := p
    rw [ho _ _ _ hh, ho _ _ _ (this.1 _ _ hh)]
    exact hg a q r post

/-- A reader that takes nothing. -/
theorem IgnoresTail.pure {α : Type} (a : α) : IgnoresTail (fun rd => .ok (a, rd)) := by
  intro pos pre post
  refine ⟨fun b rd' h => ?_, fun h => ?_⟩ <;> cases h
  rfl

/-- A reader whose value is a function of what another one gives. -/
theorem IgnoresTail.map {α β : Type} {h : Reader → Except ReadFail (β × Reader)}
    {f : Reader → Except ReadFail (α × Reader)} {g : α → β} (hf : IgnoresTail f)
    (he : ∀ rd e, f rd = .error e → h rd = .error e) (ho : ∀ rd a r, f rd = .ok (a, r) → h rd = .ok (g a, r)) :
    IgnoresTail h :=
  hf.bind (g := fun a rd => .ok (g a, rd)) (fun _ => .pure _) he ho

theorem readBits_ignoresTail (n : Nat) : IgnoresTail (readBits n) := by
  have key : ∀ n acc pre post v r, takeBits n acc pre = .ok (v, r) →
      takeBits n acc (pre ++ post) = .ok (v, r ++ post) := by
    intro n
    induction n with
    | zero => simp [takeBits]
    | succ n ih =>
      intro acc pre post v r h
      cases pre with
      | nil => simp [takeBits] at h
      | cons b bs => exact ih _ _ _ _ _ h
  intro pos pre post
  refine ⟨fun a rd' h => ?_, fun h => ?_⟩
  · simp only [readBits] at *
    split at h
    · rename_i e
      cases h
      rw [key _ _ _ _ _ _ e]
    · cases h
  · cases (readBits_error.1 h).1

theorem unaryRun_append (limit : Nat) (pre post : List Bool) (q : Nat) :
    (∀ v r, unaryRun limit q pre = .ok (v, r) → unaryRun limit q (pre ++ post) = .ok (v, r ++ post)) ∧
    (unaryRun limit q pre = .error .overflow → unaryRun limit q (pre ++ post) = .error .overflow) := by
  induction pre generalizing q with
  | nil => simp [unaryRun]
  | cons b pre ih =>
    cases b with
    | true => simp [unaryRun]
    | false =>
      simp only [List.cons_append, unaryRun]
      split
      · simp
      · exact ih _

theorem riceRead_ignoresTail (k : Nat) : IgnoresTail (riceRead k) := by
  intro pos pre post
  have hu := unaryRun_append ((2 ^ 32 - 1) >>> k) pre post 0
  cases h : unaryRun ((2 ^ 32 - 1) >>> k) 0 pre with
  | error e =>
    simp only [riceRead, h]
    refine ⟨by simp, fun he => ?_⟩
    cases he
    simp only [hu.2 h]
  | ok p =>
    obtain ⟨q, r⟩ := p
    simp only [riceRead, h, hu.1 _ _ h]
    exact IgnoresTail.map (g := fun rem => unzigzag (BitVec.ofNat 32 (q * 2 ^ k + rem))) (readBits_ignoresTail k)
      (h := fun rd => match readBits k rd with
        | .error e => .error e
        | .ok (rem, rd₁) => .ok (unzigzag (BitVec.ofNat 32 (q * 2 ^ k + rem)), rd₁))
      (fun rd e h => by simp [h]) (fun rd a r h => by simp [h]) (pos + q + 1) r post

theorem residualRead_ignoresTail (c : PartCode) : IgnoresTail (residualRead c) := by
  cases c with
  | rice k => exact riceRead_ignoresTail k
  | escaped w =>
    exact (readBits_ignoresTail w).map (g := fun f => (BitVec.ofNat w f).signExtend 32)
      (fun rd e h => by simp [residualRead, rawRead, h]) (fun rd a r h => by simp [residualRead, rawRead, h])

theorem readMany_ignoresTail {α : Type} {f : Reader → Except ReadFail (α × Reader)} (hf : IgnoresTail f) (n : Nat) :
    IgnoresTail (readMany f n) := by
  induction n with
  | zero => exact .pure _
  | succ n ih =>
    refine hf.bind (g := fun a rd => match readMany f n rd with
        | .error e => .error e
        | .ok (as, rd₁) => .ok (a :: as, rd₁)) (fun a => ?_)
      (fun rd e h => by simp [readMany, h]) (fun rd a r h => by simp only [readMany, h] <;> rfl)
    exact ih.map (g := fun as => a :: as) (fun rd e h => by simp [h]) (fun rd a r h => by simp [h])

theorem readCode_ignoresTail (v : Variant) : IgnoresTail (readCode v) := by
  refine (readBits_ignoresTail (paramWidth v)).bind (g := fun f rd =>
      if f = escapeSentinel v then
        match readBits 5 rd with
        | .error e => .error e
        | .ok (w, rd₁) => .ok (.escaped w, rd₁)
      else .ok (.rice f, rd)) (fun f => ?_)
    (fun rd e h => by simp [readCode, h]) (fun rd a r h => by simp only [readCode, h] <;> rfl)
  split
  · exact (readBits_ignoresTail 5).map (g := .escaped) (fun rd e h => by simp [h]) (fun rd a r h => by simp [h])
  · exact .pure _

theorem readPart_ignoresTail (v : Variant) (n : Nat) : IgnoresTail (readPart v n) := by
  refine (readCode_ignoresTail v).bind (g := fun c rd => match readMany (residualRead c) n rd with
      | .error e => .error e
      | .ok (rs, rd₁) => .ok ((c, rs), rd₁)) (fun c => ?_)
    (fun rd e h => by simp [readPart, h]) (fun rd a r h => by simp only [readPart, h] <;> rfl)
  exact (readMany_ignoresTail (residualRead_ignoresTail c) n).map (g := fun rs => (c, rs))
    (fun rd e h => by simp [h]) (fun rd a r h => by simp [h])

theorem readParts_ignoresTail (v : Variant) (lens : List Nat) : IgnoresTail (readParts v lens) := by
  induction lens with
  | nil => exact .pure _
  | cons n lens ih =>
    refine (readPart_ignoresTail v n).bind (g := fun p rd => match readParts v lens rd with
        | .error e => .error e
        | .ok (ps, rd₁) => .ok (p :: ps, rd₁)) (fun p => ?_)
      (fun rd e h => by simp [readParts, h]) (fun rd a r h => by simp only [readParts, h] <;> rfl)
    exact ih.map (g := fun ps => p :: ps) (fun rd e h => by simp [h]) (fun rd a r h => by simp [h])

end Sys2Proof.Machine
end

