-- ==== Sys2Proof/Laws/State.lean ====
section
/-! SUPPORT. What each update of the state leaves in each field: one lemma a field, true by rfl. -/

namespace Sys2Proof.Machine

/-! ### The completions are `complete` -/

@[simp] theorem finish_eq (r : Word64) (a : Advisory) (s : State) : finish r a s = complete .ok r a s := rfl
@[simp] theorem raise_eq (c : StatusCode) (r : Word64) (a : Advisory) (s : State) : raise c r a s = complete c r a s := rfl
@[simp] theorem illegalCommand_eq (s : State) : illegalCommand s = complete .illegalCommand 0 .clear s := rfl
@[simp] theorem codecFail_eq (c : StatusCode) (a : Advisory) (s : State) :
    codecFail c a s = complete c 0 a (setCvalid false s) := rfl

/-- A validator is one completion: its code is OutOfRange or OK (R140). -/
theorem validate_eq (fmt sub b : Bool) (a : Advisory) (s : State) :
    validate fmt sub b a s =
      complete (if fmt || (b && sub) then .outOfRange else .ok) (violationBits fmt sub) a s := by
  unfold validate; split <;> rfl

/-- The release of an asserted reset is the platform's reset (R340). -/
theorem releaseReset_asserted {s : State} (h : s.inReset = true) : releaseReset s = platformReset s := by
  simp [releaseReset, h]

/-- The release of an input not asserted leaves only the bus's reply (log entry 10). -/
theorem releaseReset_released {s : State} (h : s.inReset = false) : releaseReset s = setReply .none s := by
  simp [releaseReset, h]

/-! ### complete -/

@[simp] theorem complete_code (c : StatusCode) (r : Word64) (a : Advisory) (s : State) : (complete c r a s).code = c := rfl
@[simp] theorem complete_fatal (c : StatusCode) (r : Word64) (a : Advisory) (s : State) : (complete c r a s).fatal = (s.fatal || c == .indexOutOfRange) := rfl
@[simp] theorem complete_result (c : StatusCode) (r : Word64) (a : Advisory) (s : State) : (complete c r a s).result = r := rfl
@[simp] theorem complete_advisory (c : StatusCode) (r : Word64) (a : Advisory) (s : State) : (complete c r a s).advisory = a := rfl
@[simp] theorem complete_inPos (c : StatusCode) (r : Word64) (a : Advisory) (s : State) : (complete c r a s).inPos = s.inPos := rfl
@[simp] theorem complete_outBits (c : StatusCode) (r : Word64) (a : Advisory) (s : State) : (complete c r a s).outBits = s.outBits := rfl
@[simp] theorem complete_args (c : StatusCode) (r : Word64) (a : Advisory) (s : State) : (complete c r a s).args = s.args := rfl
@[simp] theorem complete_si (c : StatusCode) (r : Word64) (a : Advisory) (s : State) : (complete c r a s).si = s.si := rfl
@[simp] theorem complete_siValid (c : StatusCode) (r : Word64) (a : Advisory) (s : State) : (complete c r a s).siValid = s.siValid := rfl
@[simp] theorem complete_prOrder (c : StatusCode) (r : Word64) (a : Advisory) (s : State) : (complete c r a s).prOrder = s.prOrder := rfl
@[simp] theorem complete_prVariant (c : StatusCode) (r : Word64) (a : Advisory) (s : State) : (complete c r a s).prVariant = s.prVariant := rfl
@[simp] theorem complete_capOrder (c : StatusCode) (r : Word64) (a : Advisory) (s : State) : (complete c r a s).capOrder = s.capOrder := rfl
@[simp] theorem complete_param (c : StatusCode) (r : Word64) (a : Advisory) (s : State) : (complete c r a s).param = s.param := rfl
@[simp] theorem complete_raw (c : StatusCode) (r : Word64) (a : Advisory) (s : State) : (complete c r a s).raw = s.raw := rfl
@[simp] theorem complete_res (c : StatusCode) (r : Word64) (a : Advisory) (s : State) : (complete c r a s).res = s.res := rfl
@[simp] theorem complete_cvalid (c : StatusCode) (r : Word64) (a : Advisory) (s : State) : (complete c r a s).cvalid = s.cvalid := rfl
@[simp] theorem complete_fhv (c : StatusCode) (r : Word64) (a : Advisory) (s : State) : (complete c r a s).fhv = s.fhv := rfl
@[simp] theorem complete_inReset (c : StatusCode) (r : Word64) (a : Advisory) (s : State) : (complete c r a s).inReset = s.inReset := rfl
@[simp] theorem complete_cfg (c : StatusCode) (r : Word64) (a : Advisory) (s : State) : (complete c r a s).cfg = s.cfg := rfl
@[simp] theorem complete_bootDraw (c : StatusCode) (r : Word64) (a : Advisory) (s : State) : (complete c r a s).bootDraw = s.bootDraw := rfl
@[simp] theorem complete_draws (c : StatusCode) (r : Word64) (a : Advisory) (s : State) : (complete c r a s).draws = s.draws := rfl
@[simp] theorem complete_reply (c : StatusCode) (r : Word64) (a : Advisory) (s : State) : (complete c r a s).reply = s.reply := rfl
@[simp] theorem complete_pending (c : StatusCode) (r : Word64) (a : Advisory) (s : State) : (complete c r a s).pending = s.pending := rfl

/-! ### setCvalid -/

@[simp] theorem setCvalid_code (b : Bool) (s : State) : (setCvalid b s).code = s.code := rfl
@[simp] theorem setCvalid_fatal (b : Bool) (s : State) : (setCvalid b s).fatal = s.fatal := rfl
@[simp] theorem setCvalid_result (b : Bool) (s : State) : (setCvalid b s).result = s.result := rfl
@[simp] theorem setCvalid_advisory (b : Bool) (s : State) : (setCvalid b s).advisory = s.advisory := rfl
@[simp] theorem setCvalid_inPos (b : Bool) (s : State) : (setCvalid b s).inPos = s.inPos := rfl
@[simp] theorem setCvalid_outBits (b : Bool) (s : State) : (setCvalid b s).outBits = s.outBits := rfl
@[simp] theorem setCvalid_args (b : Bool) (s : State) : (setCvalid b s).args = s.args := rfl
@[simp] theorem setCvalid_si (b : Bool) (s : State) : (setCvalid b s).si = s.si := rfl
@[simp] theorem setCvalid_siValid (b : Bool) (s : State) : (setCvalid b s).siValid = s.siValid := rfl
@[simp] theorem setCvalid_prOrder (b : Bool) (s : State) : (setCvalid b s).prOrder = s.prOrder := rfl
@[simp] theorem setCvalid_prVariant (b : Bool) (s : State) : (setCvalid b s).prVariant = s.prVariant := rfl
@[simp] theorem setCvalid_capOrder (b : Bool) (s : State) : (setCvalid b s).capOrder = s.capOrder := rfl
@[simp] theorem setCvalid_param (b : Bool) (s : State) : (setCvalid b s).param = s.param := rfl
@[simp] theorem setCvalid_raw (b : Bool) (s : State) : (setCvalid b s).raw = s.raw := rfl
@[simp] theorem setCvalid_res (b : Bool) (s : State) : (setCvalid b s).res = s.res := rfl
@[simp] theorem setCvalid_cvalid (b : Bool) (s : State) : (setCvalid b s).cvalid = b := rfl
@[simp] theorem setCvalid_fhv (b : Bool) (s : State) : (setCvalid b s).fhv = s.fhv := rfl
@[simp] theorem setCvalid_inReset (b : Bool) (s : State) : (setCvalid b s).inReset = s.inReset := rfl
@[simp] theorem setCvalid_cfg (b : Bool) (s : State) : (setCvalid b s).cfg = s.cfg := rfl
@[simp] theorem setCvalid_bootDraw (b : Bool) (s : State) : (setCvalid b s).bootDraw = s.bootDraw := rfl
@[simp] theorem setCvalid_draws (b : Bool) (s : State) : (setCvalid b s).draws = s.draws := rfl
@[simp] theorem setCvalid_reply (b : Bool) (s : State) : (setCvalid b s).reply = s.reply := rfl
@[simp] theorem setCvalid_pending (b : Bool) (s : State) : (setCvalid b s).pending = s.pending := rfl

/-! ### ensure -/

@[simp] theorem ensure_code (o : Nat) (s : State) : (ensure o s).code = s.code := rfl
@[simp] theorem ensure_fatal (o : Nat) (s : State) : (ensure o s).fatal = s.fatal := rfl
@[simp] theorem ensure_result (o : Nat) (s : State) : (ensure o s).result = s.result := rfl
@[simp] theorem ensure_advisory (o : Nat) (s : State) : (ensure o s).advisory = s.advisory := rfl
@[simp] theorem ensure_inPos (o : Nat) (s : State) : (ensure o s).inPos = s.inPos := rfl
@[simp] theorem ensure_outBits (o : Nat) (s : State) : (ensure o s).outBits = s.outBits := rfl
@[simp] theorem ensure_args (o : Nat) (s : State) : (ensure o s).args = s.args := rfl
@[simp] theorem ensure_si (o : Nat) (s : State) : (ensure o s).si = s.si := rfl
@[simp] theorem ensure_siValid (o : Nat) (s : State) : (ensure o s).siValid = s.siValid := rfl
@[simp] theorem ensure_prOrder (o : Nat) (s : State) : (ensure o s).prOrder = s.prOrder := rfl
@[simp] theorem ensure_prVariant (o : Nat) (s : State) : (ensure o s).prVariant = s.prVariant := rfl
@[simp] theorem ensure_capOrder (o : Nat) (s : State) : (ensure o s).capOrder = BitVec.ofNat 4 (max s.capOrder.toNat o) := rfl
@[simp] theorem ensure_param (o : Nat) (s : State) : (ensure o s).param = s.param := rfl
@[simp] theorem ensure_raw (o : Nat) (s : State) : (ensure o s).raw = s.raw := rfl
@[simp] theorem ensure_res (o : Nat) (s : State) : (ensure o s).res = s.res := rfl
@[simp] theorem ensure_cvalid (o : Nat) (s : State) : (ensure o s).cvalid = s.cvalid := rfl
@[simp] theorem ensure_fhv (o : Nat) (s : State) : (ensure o s).fhv = s.fhv := rfl
@[simp] theorem ensure_inReset (o : Nat) (s : State) : (ensure o s).inReset = s.inReset := rfl
@[simp] theorem ensure_cfg (o : Nat) (s : State) : (ensure o s).cfg = s.cfg := rfl
@[simp] theorem ensure_bootDraw (o : Nat) (s : State) : (ensure o s).bootDraw = s.bootDraw := rfl
@[simp] theorem ensure_draws (o : Nat) (s : State) : (ensure o s).draws = s.draws := rfl
@[simp] theorem ensure_reply (o : Nat) (s : State) : (ensure o s).reply = s.reply := rfl
@[simp] theorem ensure_pending (o : Nat) (s : State) : (ensure o s).pending = s.pending := rfl

/-! ### writeHeader -/

@[simp] theorem writeHeader_code (o : Nat) (v : Variant) (s : State) : (writeHeader o v s).code = s.code := rfl
@[simp] theorem writeHeader_fatal (o : Nat) (v : Variant) (s : State) : (writeHeader o v s).fatal = s.fatal := rfl
@[simp] theorem writeHeader_result (o : Nat) (v : Variant) (s : State) : (writeHeader o v s).result = s.result := rfl
@[simp] theorem writeHeader_advisory (o : Nat) (v : Variant) (s : State) : (writeHeader o v s).advisory = s.advisory := rfl
@[simp] theorem writeHeader_inPos (o : Nat) (v : Variant) (s : State) : (writeHeader o v s).inPos = s.inPos := rfl
@[simp] theorem writeHeader_outBits (o : Nat) (v : Variant) (s : State) : (writeHeader o v s).outBits = s.outBits := rfl
@[simp] theorem writeHeader_args (o : Nat) (v : Variant) (s : State) : (writeHeader o v s).args = s.args := rfl
@[simp] theorem writeHeader_si (o : Nat) (v : Variant) (s : State) : (writeHeader o v s).si = s.si := rfl
@[simp] theorem writeHeader_siValid (o : Nat) (v : Variant) (s : State) : (writeHeader o v s).siValid = s.siValid := rfl
@[simp] theorem writeHeader_prOrder (o : Nat) (v : Variant) (s : State) : (writeHeader o v s).prOrder = BitVec.ofNat 4 o := rfl
@[simp] theorem writeHeader_prVariant (o : Nat) (v : Variant) (s : State) : (writeHeader o v s).prVariant = v := rfl
@[simp] theorem writeHeader_capOrder (o : Nat) (v : Variant) (s : State) : (writeHeader o v s).capOrder = BitVec.ofNat 4 (max s.capOrder.toNat o) := rfl
@[simp] theorem writeHeader_param (o : Nat) (v : Variant) (s : State) : (writeHeader o v s).param = s.param := rfl
@[simp] theorem writeHeader_raw (o : Nat) (v : Variant) (s : State) : (writeHeader o v s).raw = s.raw := rfl
@[simp] theorem writeHeader_res (o : Nat) (v : Variant) (s : State) : (writeHeader o v s).res = s.res := rfl
@[simp] theorem writeHeader_cvalid (o : Nat) (v : Variant) (s : State) : (writeHeader o v s).cvalid = s.cvalid := rfl
@[simp] theorem writeHeader_fhv (o : Nat) (v : Variant) (s : State) : (writeHeader o v s).fhv = s.fhv := rfl
@[simp] theorem writeHeader_inReset (o : Nat) (v : Variant) (s : State) : (writeHeader o v s).inReset = s.inReset := rfl
@[simp] theorem writeHeader_cfg (o : Nat) (v : Variant) (s : State) : (writeHeader o v s).cfg = s.cfg := rfl
@[simp] theorem writeHeader_bootDraw (o : Nat) (v : Variant) (s : State) : (writeHeader o v s).bootDraw = s.bootDraw := rfl
@[simp] theorem writeHeader_draws (o : Nat) (v : Variant) (s : State) : (writeHeader o v s).draws = s.draws := rfl
@[simp] theorem writeHeader_reply (o : Nat) (v : Variant) (s : State) : (writeHeader o v s).reply = s.reply := rfl
@[simp] theorem writeHeader_pending (o : Nat) (v : Variant) (s : State) : (writeHeader o v s).pending = s.pending := rfl

/-! ### appendBits -/

@[simp] theorem appendBits_code (b : List Bool) (s : State) : (appendBits b s).code = s.code := rfl
@[simp] theorem appendBits_fatal (b : List Bool) (s : State) : (appendBits b s).fatal = s.fatal := rfl
@[simp] theorem appendBits_result (b : List Bool) (s : State) : (appendBits b s).result = s.result := rfl
@[simp] theorem appendBits_advisory (b : List Bool) (s : State) : (appendBits b s).advisory = s.advisory := rfl
@[simp] theorem appendBits_inPos (b : List Bool) (s : State) : (appendBits b s).inPos = s.inPos := rfl
@[simp] theorem appendBits_outBits (b : List Bool) (s : State) : (appendBits b s).outBits = s.outBits ++ b := rfl
@[simp] theorem appendBits_args (b : List Bool) (s : State) : (appendBits b s).args = s.args := rfl
@[simp] theorem appendBits_si (b : List Bool) (s : State) : (appendBits b s).si = s.si := rfl
@[simp] theorem appendBits_siValid (b : List Bool) (s : State) : (appendBits b s).siValid = s.siValid := rfl
@[simp] theorem appendBits_prOrder (b : List Bool) (s : State) : (appendBits b s).prOrder = s.prOrder := rfl
@[simp] theorem appendBits_prVariant (b : List Bool) (s : State) : (appendBits b s).prVariant = s.prVariant := rfl
@[simp] theorem appendBits_capOrder (b : List Bool) (s : State) : (appendBits b s).capOrder = s.capOrder := rfl
@[simp] theorem appendBits_param (b : List Bool) (s : State) : (appendBits b s).param = s.param := rfl
@[simp] theorem appendBits_raw (b : List Bool) (s : State) : (appendBits b s).raw = s.raw := rfl
@[simp] theorem appendBits_res (b : List Bool) (s : State) : (appendBits b s).res = s.res := rfl
@[simp] theorem appendBits_cvalid (b : List Bool) (s : State) : (appendBits b s).cvalid = s.cvalid := rfl
@[simp] theorem appendBits_fhv (b : List Bool) (s : State) : (appendBits b s).fhv = s.fhv := rfl
@[simp] theorem appendBits_inReset (b : List Bool) (s : State) : (appendBits b s).inReset = s.inReset := rfl
@[simp] theorem appendBits_cfg (b : List Bool) (s : State) : (appendBits b s).cfg = s.cfg := rfl
@[simp] theorem appendBits_bootDraw (b : List Bool) (s : State) : (appendBits b s).bootDraw = s.bootDraw := rfl
@[simp] theorem appendBits_draws (b : List Bool) (s : State) : (appendBits b s).draws = s.draws := rfl
@[simp] theorem appendBits_reply (b : List Bool) (s : State) : (appendBits b s).reply = s.reply := rfl
@[simp] theorem appendBits_pending (b : List Bool) (s : State) : (appendBits b s).pending = s.pending := rfl

/-! ### writePartition -/

@[simp] theorem writePartition_code (i p w : Nat) (s : State) : (writePartition i p w s).code = s.code := rfl
@[simp] theorem writePartition_fatal (i p w : Nat) (s : State) : (writePartition i p w s).fatal = s.fatal := rfl
@[simp] theorem writePartition_result (i p w : Nat) (s : State) : (writePartition i p w s).result = s.result := rfl
@[simp] theorem writePartition_advisory (i p w : Nat) (s : State) : (writePartition i p w s).advisory = s.advisory := rfl
@[simp] theorem writePartition_inPos (i p w : Nat) (s : State) : (writePartition i p w s).inPos = s.inPos := rfl
@[simp] theorem writePartition_outBits (i p w : Nat) (s : State) : (writePartition i p w s).outBits = s.outBits := rfl
@[simp] theorem writePartition_args (i p w : Nat) (s : State) : (writePartition i p w s).args = s.args := rfl
@[simp] theorem writePartition_si (i p w : Nat) (s : State) : (writePartition i p w s).si = s.si := rfl
@[simp] theorem writePartition_siValid (i p w : Nat) (s : State) : (writePartition i p w s).siValid = s.siValid := rfl
@[simp] theorem writePartition_prOrder (i p w : Nat) (s : State) : (writePartition i p w s).prOrder = s.prOrder := rfl
@[simp] theorem writePartition_prVariant (i p w : Nat) (s : State) : (writePartition i p w s).prVariant = s.prVariant := rfl
@[simp] theorem writePartition_capOrder (i p w : Nat) (s : State) : (writePartition i p w s).capOrder = s.capOrder := rfl
@[simp] theorem writePartition_param (i p w : Nat) (s : State) : (writePartition i p w s).param = Memory.write i (BitVec.ofNat 5 p) s.param := rfl
@[simp] theorem writePartition_raw (i p w : Nat) (s : State) : (writePartition i p w s).raw = Memory.write i (BitVec.ofNat 5 w) s.raw := rfl
@[simp] theorem writePartition_res (i p w : Nat) (s : State) : (writePartition i p w s).res = s.res := rfl
@[simp] theorem writePartition_cvalid (i p w : Nat) (s : State) : (writePartition i p w s).cvalid = s.cvalid := rfl
@[simp] theorem writePartition_fhv (i p w : Nat) (s : State) : (writePartition i p w s).fhv = s.fhv := rfl
@[simp] theorem writePartition_inReset (i p w : Nat) (s : State) : (writePartition i p w s).inReset = s.inReset := rfl
@[simp] theorem writePartition_cfg (i p w : Nat) (s : State) : (writePartition i p w s).cfg = s.cfg := rfl
@[simp] theorem writePartition_bootDraw (i p w : Nat) (s : State) : (writePartition i p w s).bootDraw = s.bootDraw := rfl
@[simp] theorem writePartition_draws (i p w : Nat) (s : State) : (writePartition i p w s).draws = s.draws := rfl
@[simp] theorem writePartition_reply (i p w : Nat) (s : State) : (writePartition i p w s).reply = s.reply := rfl
@[simp] theorem writePartition_pending (i p w : Nat) (s : State) : (writePartition i p w s).pending = s.pending := rfl

/-! ### writeCodes -/

@[simp] theorem writeCodes_code (v : Variant) (ps : List Part) (s : State) : (writeCodes v ps s).code = s.code := rfl
@[simp] theorem writeCodes_fatal (v : Variant) (ps : List Part) (s : State) : (writeCodes v ps s).fatal = s.fatal := rfl
@[simp] theorem writeCodes_result (v : Variant) (ps : List Part) (s : State) : (writeCodes v ps s).result = s.result := rfl
@[simp] theorem writeCodes_advisory (v : Variant) (ps : List Part) (s : State) : (writeCodes v ps s).advisory = s.advisory := rfl
@[simp] theorem writeCodes_inPos (v : Variant) (ps : List Part) (s : State) : (writeCodes v ps s).inPos = s.inPos := rfl
@[simp] theorem writeCodes_outBits (v : Variant) (ps : List Part) (s : State) : (writeCodes v ps s).outBits = s.outBits := rfl
@[simp] theorem writeCodes_args (v : Variant) (ps : List Part) (s : State) : (writeCodes v ps s).args = s.args := rfl
@[simp] theorem writeCodes_si (v : Variant) (ps : List Part) (s : State) : (writeCodes v ps s).si = s.si := rfl
@[simp] theorem writeCodes_siValid (v : Variant) (ps : List Part) (s : State) : (writeCodes v ps s).siValid = s.siValid := rfl
@[simp] theorem writeCodes_prOrder (v : Variant) (ps : List Part) (s : State) : (writeCodes v ps s).prOrder = s.prOrder := rfl
@[simp] theorem writeCodes_prVariant (v : Variant) (ps : List Part) (s : State) : (writeCodes v ps s).prVariant = s.prVariant := rfl
@[simp] theorem writeCodes_capOrder (v : Variant) (ps : List Part) (s : State) : (writeCodes v ps s).capOrder = s.capOrder := rfl
@[simp] theorem writeCodes_param (v : Variant) (ps : List Part) (s : State) : (writeCodes v ps s).param = Memory.writeRun 0 (ps.map (fun p => p.1.param v)) s.param := rfl
@[simp] theorem writeCodes_raw (v : Variant) (ps : List Part) (s : State) : (writeCodes v ps s).raw = Memory.writeRun 0 (ps.map (fun p => p.1.raw)) s.raw := rfl
@[simp] theorem writeCodes_res (v : Variant) (ps : List Part) (s : State) : (writeCodes v ps s).res = s.res := rfl
@[simp] theorem writeCodes_cvalid (v : Variant) (ps : List Part) (s : State) : (writeCodes v ps s).cvalid = s.cvalid := rfl
@[simp] theorem writeCodes_fhv (v : Variant) (ps : List Part) (s : State) : (writeCodes v ps s).fhv = s.fhv := rfl
@[simp] theorem writeCodes_inReset (v : Variant) (ps : List Part) (s : State) : (writeCodes v ps s).inReset = s.inReset := rfl
@[simp] theorem writeCodes_cfg (v : Variant) (ps : List Part) (s : State) : (writeCodes v ps s).cfg = s.cfg := rfl
@[simp] theorem writeCodes_bootDraw (v : Variant) (ps : List Part) (s : State) : (writeCodes v ps s).bootDraw = s.bootDraw := rfl
@[simp] theorem writeCodes_draws (v : Variant) (ps : List Part) (s : State) : (writeCodes v ps s).draws = s.draws := rfl
@[simp] theorem writeCodes_reply (v : Variant) (ps : List Part) (s : State) : (writeCodes v ps s).reply = s.reply := rfl
@[simp] theorem writeCodes_pending (v : Variant) (ps : List Part) (s : State) : (writeCodes v ps s).pending = s.pending := rfl

/-! ### writeResiduals -/

@[simp] theorem writeResiduals_code (ps : List Part) (s : State) : (writeResiduals ps s).code = s.code := rfl
@[simp] theorem writeResiduals_fatal (ps : List Part) (s : State) : (writeResiduals ps s).fatal = s.fatal := rfl
@[simp] theorem writeResiduals_result (ps : List Part) (s : State) : (writeResiduals ps s).result = s.result := rfl
@[simp] theorem writeResiduals_advisory (ps : List Part) (s : State) : (writeResiduals ps s).advisory = s.advisory := rfl
@[simp] theorem writeResiduals_inPos (ps : List Part) (s : State) : (writeResiduals ps s).inPos = s.inPos := rfl
@[simp] theorem writeResiduals_outBits (ps : List Part) (s : State) : (writeResiduals ps s).outBits = s.outBits := rfl
@[simp] theorem writeResiduals_args (ps : List Part) (s : State) : (writeResiduals ps s).args = s.args := rfl
@[simp] theorem writeResiduals_si (ps : List Part) (s : State) : (writeResiduals ps s).si = s.si := rfl
@[simp] theorem writeResiduals_siValid (ps : List Part) (s : State) : (writeResiduals ps s).siValid = s.siValid := rfl
@[simp] theorem writeResiduals_prOrder (ps : List Part) (s : State) : (writeResiduals ps s).prOrder = s.prOrder := rfl
@[simp] theorem writeResiduals_prVariant (ps : List Part) (s : State) : (writeResiduals ps s).prVariant = s.prVariant := rfl
@[simp] theorem writeResiduals_capOrder (ps : List Part) (s : State) : (writeResiduals ps s).capOrder = s.capOrder := rfl
@[simp] theorem writeResiduals_param (ps : List Part) (s : State) : (writeResiduals ps s).param = s.param := rfl
@[simp] theorem writeResiduals_raw (ps : List Part) (s : State) : (writeResiduals ps s).raw = s.raw := rfl
@[simp] theorem writeResiduals_res (ps : List Part) (s : State) : (writeResiduals ps s).res = Memory.writeRun 0 (ps.map (fun p => p.2)).flatten s.res := rfl
@[simp] theorem writeResiduals_cvalid (ps : List Part) (s : State) : (writeResiduals ps s).cvalid = s.cvalid := rfl
@[simp] theorem writeResiduals_fhv (ps : List Part) (s : State) : (writeResiduals ps s).fhv = s.fhv := rfl
@[simp] theorem writeResiduals_inReset (ps : List Part) (s : State) : (writeResiduals ps s).inReset = s.inReset := rfl
@[simp] theorem writeResiduals_cfg (ps : List Part) (s : State) : (writeResiduals ps s).cfg = s.cfg := rfl
@[simp] theorem writeResiduals_bootDraw (ps : List Part) (s : State) : (writeResiduals ps s).bootDraw = s.bootDraw := rfl
@[simp] theorem writeResiduals_draws (ps : List Part) (s : State) : (writeResiduals ps s).draws = s.draws := rfl
@[simp] theorem writeResiduals_reply (ps : List Part) (s : State) : (writeResiduals ps s).reply = s.reply := rfl
@[simp] theorem writeResiduals_pending (ps : List Part) (s : State) : (writeResiduals ps s).pending = s.pending := rfl

/-! ### drawInPos -/

@[simp] theorem drawInPos_code (n : Nat) (s : State) : (drawInPos n s).code = s.code := rfl
@[simp] theorem drawInPos_fatal (n : Nat) (s : State) : (drawInPos n s).fatal = s.fatal := rfl
@[simp] theorem drawInPos_result (n : Nat) (s : State) : (drawInPos n s).result = s.result := rfl
@[simp] theorem drawInPos_advisory (n : Nat) (s : State) : (drawInPos n s).advisory = s.advisory := rfl
@[simp] theorem drawInPos_inPos (n : Nat) (s : State) : (drawInPos n s).inPos = n + Config.posDraw s.draws % (s.cfg.inBits.length - n + 1) := rfl
@[simp] theorem drawInPos_outBits (n : Nat) (s : State) : (drawInPos n s).outBits = s.outBits := rfl
@[simp] theorem drawInPos_args (n : Nat) (s : State) : (drawInPos n s).args = s.args := rfl
@[simp] theorem drawInPos_si (n : Nat) (s : State) : (drawInPos n s).si = s.si := rfl
@[simp] theorem drawInPos_siValid (n : Nat) (s : State) : (drawInPos n s).siValid = s.siValid := rfl
@[simp] theorem drawInPos_prOrder (n : Nat) (s : State) : (drawInPos n s).prOrder = s.prOrder := rfl
@[simp] theorem drawInPos_prVariant (n : Nat) (s : State) : (drawInPos n s).prVariant = s.prVariant := rfl
@[simp] theorem drawInPos_capOrder (n : Nat) (s : State) : (drawInPos n s).capOrder = s.capOrder := rfl
@[simp] theorem drawInPos_param (n : Nat) (s : State) : (drawInPos n s).param = s.param := rfl
@[simp] theorem drawInPos_raw (n : Nat) (s : State) : (drawInPos n s).raw = s.raw := rfl
@[simp] theorem drawInPos_res (n : Nat) (s : State) : (drawInPos n s).res = s.res := rfl
@[simp] theorem drawInPos_cvalid (n : Nat) (s : State) : (drawInPos n s).cvalid = s.cvalid := rfl
@[simp] theorem drawInPos_fhv (n : Nat) (s : State) : (drawInPos n s).fhv = s.fhv := rfl
@[simp] theorem drawInPos_inReset (n : Nat) (s : State) : (drawInPos n s).inReset = s.inReset := rfl
@[simp] theorem drawInPos_cfg (n : Nat) (s : State) : (drawInPos n s).cfg = s.cfg := rfl
@[simp] theorem drawInPos_bootDraw (n : Nat) (s : State) : (drawInPos n s).bootDraw = s.bootDraw := rfl
@[simp] theorem drawInPos_draws (n : Nat) (s : State) : (drawInPos n s).draws = s.draws + 1 := rfl
@[simp] theorem drawInPos_reply (n : Nat) (s : State) : (drawInPos n s).reply = s.reply := rfl
@[simp] theorem drawInPos_pending (n : Nat) (s : State) : (drawInPos n s).pending = s.pending := rfl

/-! ### drawContents -/

@[simp] theorem drawContents_code (np nr : Nat) (s : State) : (drawContents np nr s).code = s.code := rfl
@[simp] theorem drawContents_fatal (np nr : Nat) (s : State) : (drawContents np nr s).fatal = s.fatal := rfl
@[simp] theorem drawContents_result (np nr : Nat) (s : State) : (drawContents np nr s).result = s.result := rfl
@[simp] theorem drawContents_advisory (np nr : Nat) (s : State) : (drawContents np nr s).advisory = s.advisory := rfl
@[simp] theorem drawContents_inPos (np nr : Nat) (s : State) : (drawContents np nr s).inPos = s.inPos := rfl
@[simp] theorem drawContents_outBits (np nr : Nat) (s : State) : (drawContents np nr s).outBits = s.outBits := rfl
@[simp] theorem drawContents_args (np nr : Nat) (s : State) : (drawContents np nr s).args = s.args := rfl
@[simp] theorem drawContents_si (np nr : Nat) (s : State) : (drawContents np nr s).si = s.si := rfl
@[simp] theorem drawContents_siValid (np nr : Nat) (s : State) : (drawContents np nr s).siValid = s.siValid := rfl
@[simp] theorem drawContents_prOrder (np nr : Nat) (s : State) : (drawContents np nr s).prOrder = s.prOrder := rfl
@[simp] theorem drawContents_prVariant (np nr : Nat) (s : State) : (drawContents np nr s).prVariant = s.prVariant := rfl
@[simp] theorem drawContents_capOrder (np nr : Nat) (s : State) : (drawContents np nr s).capOrder = s.capOrder := rfl
@[simp] theorem drawContents_param (np nr : Nat) (s : State) : (drawContents np nr s).param = Memory.writeRun 0 ((List.range np).map (Config.paramDraw s.draws)) s.param := rfl
@[simp] theorem drawContents_raw (np nr : Nat) (s : State) : (drawContents np nr s).raw = Memory.writeRun 0 ((List.range np).map (Config.rawDraw s.draws)) s.raw := rfl
@[simp] theorem drawContents_res (np nr : Nat) (s : State) : (drawContents np nr s).res = Memory.writeRun 0 ((List.range nr).map (Config.resDraw s.draws)) s.res := rfl
@[simp] theorem drawContents_cvalid (np nr : Nat) (s : State) : (drawContents np nr s).cvalid = s.cvalid := rfl
@[simp] theorem drawContents_fhv (np nr : Nat) (s : State) : (drawContents np nr s).fhv = s.fhv := rfl
@[simp] theorem drawContents_inReset (np nr : Nat) (s : State) : (drawContents np nr s).inReset = s.inReset := rfl
@[simp] theorem drawContents_cfg (np nr : Nat) (s : State) : (drawContents np nr s).cfg = s.cfg := rfl
@[simp] theorem drawContents_bootDraw (np nr : Nat) (s : State) : (drawContents np nr s).bootDraw = s.bootDraw := rfl
@[simp] theorem drawContents_draws (np nr : Nat) (s : State) : (drawContents np nr s).draws = s.draws + 1 := rfl
@[simp] theorem drawContents_reply (np nr : Nat) (s : State) : (drawContents np nr s).reply = s.reply := rfl
@[simp] theorem drawContents_pending (np nr : Nat) (s : State) : (drawContents np nr s).pending = s.pending := rfl

/-! ### writeArg -/

@[simp] theorem writeArg_code (i : Fin 8) (w : Word) (s : State) : (writeArg i w s).code = s.code := rfl
@[simp] theorem writeArg_fatal (i : Fin 8) (w : Word) (s : State) : (writeArg i w s).fatal = s.fatal := rfl
@[simp] theorem writeArg_result (i : Fin 8) (w : Word) (s : State) : (writeArg i w s).result = s.result := rfl
@[simp] theorem writeArg_advisory (i : Fin 8) (w : Word) (s : State) : (writeArg i w s).advisory = s.advisory := rfl
@[simp] theorem writeArg_inPos (i : Fin 8) (w : Word) (s : State) : (writeArg i w s).inPos = s.inPos := rfl
@[simp] theorem writeArg_outBits (i : Fin 8) (w : Word) (s : State) : (writeArg i w s).outBits = s.outBits := rfl
@[simp] theorem writeArg_args (i : Fin 8) (w : Word) (s : State) : (writeArg i w s).args = s.args.set i w := rfl
@[simp] theorem writeArg_si (i : Fin 8) (w : Word) (s : State) : (writeArg i w s).si = s.si := rfl
@[simp] theorem writeArg_siValid (i : Fin 8) (w : Word) (s : State) : (writeArg i w s).siValid = s.siValid := rfl
@[simp] theorem writeArg_prOrder (i : Fin 8) (w : Word) (s : State) : (writeArg i w s).prOrder = s.prOrder := rfl
@[simp] theorem writeArg_prVariant (i : Fin 8) (w : Word) (s : State) : (writeArg i w s).prVariant = s.prVariant := rfl
@[simp] theorem writeArg_capOrder (i : Fin 8) (w : Word) (s : State) : (writeArg i w s).capOrder = s.capOrder := rfl
@[simp] theorem writeArg_param (i : Fin 8) (w : Word) (s : State) : (writeArg i w s).param = s.param := rfl
@[simp] theorem writeArg_raw (i : Fin 8) (w : Word) (s : State) : (writeArg i w s).raw = s.raw := rfl
@[simp] theorem writeArg_res (i : Fin 8) (w : Word) (s : State) : (writeArg i w s).res = s.res := rfl
@[simp] theorem writeArg_cvalid (i : Fin 8) (w : Word) (s : State) : (writeArg i w s).cvalid = s.cvalid := rfl
@[simp] theorem writeArg_fhv (i : Fin 8) (w : Word) (s : State) : (writeArg i w s).fhv = s.fhv := rfl
@[simp] theorem writeArg_inReset (i : Fin 8) (w : Word) (s : State) : (writeArg i w s).inReset = s.inReset := rfl
@[simp] theorem writeArg_cfg (i : Fin 8) (w : Word) (s : State) : (writeArg i w s).cfg = s.cfg := rfl
@[simp] theorem writeArg_bootDraw (i : Fin 8) (w : Word) (s : State) : (writeArg i w s).bootDraw = s.bootDraw := rfl
@[simp] theorem writeArg_draws (i : Fin 8) (w : Word) (s : State) : (writeArg i w s).draws = s.draws := rfl
@[simp] theorem writeArg_reply (i : Fin 8) (w : Word) (s : State) : (writeArg i w s).reply = s.reply := rfl
@[simp] theorem writeArg_pending (i : Fin 8) (w : Word) (s : State) : (writeArg i w s).pending = s.pending := rfl

/-! ### writeResEntry -/

@[simp] theorem writeResEntry_code (i : Fin 65536) (w : Word) (s : State) : (writeResEntry i w s).code = s.code := rfl
@[simp] theorem writeResEntry_fatal (i : Fin 65536) (w : Word) (s : State) : (writeResEntry i w s).fatal = s.fatal := rfl
@[simp] theorem writeResEntry_result (i : Fin 65536) (w : Word) (s : State) : (writeResEntry i w s).result = s.result := rfl
@[simp] theorem writeResEntry_advisory (i : Fin 65536) (w : Word) (s : State) : (writeResEntry i w s).advisory = s.advisory := rfl
@[simp] theorem writeResEntry_inPos (i : Fin 65536) (w : Word) (s : State) : (writeResEntry i w s).inPos = s.inPos := rfl
@[simp] theorem writeResEntry_outBits (i : Fin 65536) (w : Word) (s : State) : (writeResEntry i w s).outBits = s.outBits := rfl
@[simp] theorem writeResEntry_args (i : Fin 65536) (w : Word) (s : State) : (writeResEntry i w s).args = s.args := rfl
@[simp] theorem writeResEntry_si (i : Fin 65536) (w : Word) (s : State) : (writeResEntry i w s).si = s.si := rfl
@[simp] theorem writeResEntry_siValid (i : Fin 65536) (w : Word) (s : State) : (writeResEntry i w s).siValid = s.siValid := rfl
@[simp] theorem writeResEntry_prOrder (i : Fin 65536) (w : Word) (s : State) : (writeResEntry i w s).prOrder = s.prOrder := rfl
@[simp] theorem writeResEntry_prVariant (i : Fin 65536) (w : Word) (s : State) : (writeResEntry i w s).prVariant = s.prVariant := rfl
@[simp] theorem writeResEntry_capOrder (i : Fin 65536) (w : Word) (s : State) : (writeResEntry i w s).capOrder = s.capOrder := rfl
@[simp] theorem writeResEntry_param (i : Fin 65536) (w : Word) (s : State) : (writeResEntry i w s).param = s.param := rfl
@[simp] theorem writeResEntry_raw (i : Fin 65536) (w : Word) (s : State) : (writeResEntry i w s).raw = s.raw := rfl
@[simp] theorem writeResEntry_res (i : Fin 65536) (w : Word) (s : State) : (writeResEntry i w s).res = Memory.write i.val w s.res := rfl
@[simp] theorem writeResEntry_cvalid (i : Fin 65536) (w : Word) (s : State) : (writeResEntry i w s).cvalid = s.cvalid := rfl
@[simp] theorem writeResEntry_fhv (i : Fin 65536) (w : Word) (s : State) : (writeResEntry i w s).fhv = s.fhv := rfl
@[simp] theorem writeResEntry_inReset (i : Fin 65536) (w : Word) (s : State) : (writeResEntry i w s).inReset = s.inReset := rfl
@[simp] theorem writeResEntry_cfg (i : Fin 65536) (w : Word) (s : State) : (writeResEntry i w s).cfg = s.cfg := rfl
@[simp] theorem writeResEntry_bootDraw (i : Fin 65536) (w : Word) (s : State) : (writeResEntry i w s).bootDraw = s.bootDraw := rfl
@[simp] theorem writeResEntry_draws (i : Fin 65536) (w : Word) (s : State) : (writeResEntry i w s).draws = s.draws := rfl
@[simp] theorem writeResEntry_reply (i : Fin 65536) (w : Word) (s : State) : (writeResEntry i w s).reply = s.reply := rfl
@[simp] theorem writeResEntry_pending (i : Fin 65536) (w : Word) (s : State) : (writeResEntry i w s).pending = s.pending := rfl

/-! ### setReply -/

@[simp] theorem setReply_code (r : BusReply) (s : State) : (setReply r s).code = s.code := rfl
@[simp] theorem setReply_fatal (r : BusReply) (s : State) : (setReply r s).fatal = s.fatal := rfl
@[simp] theorem setReply_result (r : BusReply) (s : State) : (setReply r s).result = s.result := rfl
@[simp] theorem setReply_advisory (r : BusReply) (s : State) : (setReply r s).advisory = s.advisory := rfl
@[simp] theorem setReply_inPos (r : BusReply) (s : State) : (setReply r s).inPos = s.inPos := rfl
@[simp] theorem setReply_outBits (r : BusReply) (s : State) : (setReply r s).outBits = s.outBits := rfl
@[simp] theorem setReply_args (r : BusReply) (s : State) : (setReply r s).args = s.args := rfl
@[simp] theorem setReply_si (r : BusReply) (s : State) : (setReply r s).si = s.si := rfl
@[simp] theorem setReply_siValid (r : BusReply) (s : State) : (setReply r s).siValid = s.siValid := rfl
@[simp] theorem setReply_prOrder (r : BusReply) (s : State) : (setReply r s).prOrder = s.prOrder := rfl
@[simp] theorem setReply_prVariant (r : BusReply) (s : State) : (setReply r s).prVariant = s.prVariant := rfl
@[simp] theorem setReply_capOrder (r : BusReply) (s : State) : (setReply r s).capOrder = s.capOrder := rfl
@[simp] theorem setReply_param (r : BusReply) (s : State) : (setReply r s).param = s.param := rfl
@[simp] theorem setReply_raw (r : BusReply) (s : State) : (setReply r s).raw = s.raw := rfl
@[simp] theorem setReply_res (r : BusReply) (s : State) : (setReply r s).res = s.res := rfl
@[simp] theorem setReply_cvalid (r : BusReply) (s : State) : (setReply r s).cvalid = s.cvalid := rfl
@[simp] theorem setReply_fhv (r : BusReply) (s : State) : (setReply r s).fhv = s.fhv := rfl
@[simp] theorem setReply_inReset (r : BusReply) (s : State) : (setReply r s).inReset = s.inReset := rfl
@[simp] theorem setReply_cfg (r : BusReply) (s : State) : (setReply r s).cfg = s.cfg := rfl
@[simp] theorem setReply_bootDraw (r : BusReply) (s : State) : (setReply r s).bootDraw = s.bootDraw := rfl
@[simp] theorem setReply_draws (r : BusReply) (s : State) : (setReply r s).draws = s.draws := rfl
@[simp] theorem setReply_reply (r : BusReply) (s : State) : (setReply r s).reply = r := rfl
@[simp] theorem setReply_pending (r : BusReply) (s : State) : (setReply r s).pending = s.pending := rfl

/-! ### assertReset -/

@[simp] theorem assertReset_code (s : State) : (assertReset s).code = s.code := rfl
@[simp] theorem assertReset_fatal (s : State) : (assertReset s).fatal = s.fatal := rfl
@[simp] theorem assertReset_result (s : State) : (assertReset s).result = s.result := rfl
@[simp] theorem assertReset_advisory (s : State) : (assertReset s).advisory = s.advisory := rfl
@[simp] theorem assertReset_inPos (s : State) : (assertReset s).inPos = s.inPos := rfl
@[simp] theorem assertReset_outBits (s : State) : (assertReset s).outBits = s.outBits := rfl
@[simp] theorem assertReset_args (s : State) : (assertReset s).args = s.args := rfl
@[simp] theorem assertReset_si (s : State) : (assertReset s).si = s.si := rfl
@[simp] theorem assertReset_siValid (s : State) : (assertReset s).siValid = s.siValid := rfl
@[simp] theorem assertReset_prOrder (s : State) : (assertReset s).prOrder = s.prOrder := rfl
@[simp] theorem assertReset_prVariant (s : State) : (assertReset s).prVariant = s.prVariant := rfl
@[simp] theorem assertReset_capOrder (s : State) : (assertReset s).capOrder = s.capOrder := rfl
@[simp] theorem assertReset_param (s : State) : (assertReset s).param = s.param := rfl
@[simp] theorem assertReset_raw (s : State) : (assertReset s).raw = s.raw := rfl
@[simp] theorem assertReset_res (s : State) : (assertReset s).res = s.res := rfl
@[simp] theorem assertReset_cvalid (s : State) : (assertReset s).cvalid = s.cvalid := rfl
@[simp] theorem assertReset_fhv (s : State) : (assertReset s).fhv = s.fhv := rfl
@[simp] theorem assertReset_inReset (s : State) : (assertReset s).inReset = true := rfl
@[simp] theorem assertReset_cfg (s : State) : (assertReset s).cfg = s.cfg := rfl
@[simp] theorem assertReset_bootDraw (s : State) : (assertReset s).bootDraw = s.bootDraw := rfl
@[simp] theorem assertReset_draws (s : State) : (assertReset s).draws = s.draws := rfl
@[simp] theorem assertReset_reply (s : State) : (assertReset s).reply = .none := rfl
@[simp] theorem assertReset_pending (s : State) : (assertReset s).pending = s.pending := rfl

/-! ### platformReset -/

@[simp] theorem platformReset_code (s : State) : (platformReset s).code = .ok := rfl
@[simp] theorem platformReset_fatal (s : State) : (platformReset s).fatal = false := rfl
@[simp] theorem platformReset_result (s : State) : (platformReset s).result = 0 := rfl
@[simp] theorem platformReset_advisory (s : State) : (platformReset s).advisory = .clear := rfl
@[simp] theorem platformReset_inPos (s : State) : (platformReset s).inPos = 0 := rfl
@[simp] theorem platformReset_outBits (s : State) : (platformReset s).outBits = [] := rfl
@[simp] theorem platformReset_args (s : State) : (platformReset s).args = Vector.replicate 8 0 := rfl
@[simp] theorem platformReset_si (s : State) : (platformReset s).si = .zero := rfl
@[simp] theorem platformReset_siValid (s : State) : (platformReset s).siValid = false := rfl
@[simp] theorem platformReset_prOrder (s : State) : (platformReset s).prOrder = 0 := rfl
@[simp] theorem platformReset_prVariant (s : State) : (platformReset s).prVariant = .rice := rfl
@[simp] theorem platformReset_capOrder (s : State) : (platformReset s).capOrder = 0 := rfl
@[simp] theorem platformReset_param (s : State) : (platformReset s).param = [] := rfl
@[simp] theorem platformReset_raw (s : State) : (platformReset s).raw = [] := rfl
@[simp] theorem platformReset_res (s : State) : (platformReset s).res = [] := rfl
@[simp] theorem platformReset_cvalid (s : State) : (platformReset s).cvalid = false := rfl
@[simp] theorem platformReset_fhv (s : State) : (platformReset s).fhv = .unvalidated := rfl
@[simp] theorem platformReset_inReset (s : State) : (platformReset s).inReset = false := rfl
@[simp] theorem platformReset_cfg (s : State) : (platformReset s).cfg = s.cfg := rfl
@[simp] theorem platformReset_bootDraw (s : State) : (platformReset s).bootDraw = s.draws := rfl
@[simp] theorem platformReset_draws (s : State) : (platformReset s).draws = s.draws + 1 := rfl
@[simp] theorem platformReset_reply (s : State) : (platformReset s).reply = .none := rfl
@[simp] theorem platformReset_pending (s : State) : (platformReset s).pending = s.pending := rfl

end Sys2Proof.Machine
end

