-- ==== Sys2Proof/Laws/Exec.lean ====
section
/-! SUPPORT. What the shared pieces of the commands can do, each said once: the geometry of the partitions, the masks, the
draw of IN_POS, and every way ENCODE and DECODE can end. -/

namespace Sys2Proof.Machine

/-! ### Geometry (R203) -/

theorem geom_iff {bs p o : Nat} : geom bs p o = true ↔ bs % 2 ^ o = 0 ∧ p ≤ bs / 2 ^ o := by
  simp [geom, Nat.shiftRight_eq_div_pow]

theorem partLens_eq (bs p o : Nat) : partLens bs p o = partitionLengths bs p o := by
  obtain ⟨n, hn⟩ : ∃ n, 2 ^ o = n + 1 := ⟨2 ^ o - 1, by have := Nat.two_pow_pos o; omega⟩
  rw [partLens, partitionLengths, hn, List.range_succ_eq_map]
  simp only [List.map_cons, List.map_map, partLen, if_true, Nat.shiftRight_eq_div_pow, Nat.add_sub_cancel, hn]
  congr 1
  rw [List.eq_replicate_iff]
  simp [partLen, hn, Nat.shiftRight_eq_div_pow]

/-- The partitions hold bs - p residuals together (R203). -/
theorem partitionLengths_sum {bs p o : Nat} (hd : bs % 2 ^ o = 0) (hp : p ≤ bs / 2 ^ o) :
    (partitionLengths bs p o).sum = bs - p := by
  have h2 := Nat.two_pow_pos o
  simp only [partitionLengths, List.sum_cons, List.sum_replicate, smul_eq_mul]
  obtain ⟨k, rfl⟩ : 2 ^ o ∣ bs := Nat.dvd_of_mod_eq_zero hd
  rw [Nat.mul_div_cancel_left _ h2] at *
  generalize 2 ^ o = m at *
  obtain ⟨n, rfl⟩ : ∃ n, m = n + 1 := ⟨m - 1, by omega⟩
  have : (n + 1) * k = n * k + k := by ring
  simp only [Nat.add_sub_cancel]; omega

theorem readResRun_part (s : State) (bs p o i : Nat) :
    s.readResRun (partFirst bs p o i) (partLen bs p o i) = s.partResiduals bs p o i := by
  simp only [partFirst, partLen, State.partResiduals, Nat.shiftRight_eq_div_pow]
  split <;> rfl

theorem encodeParts_eq (s : State) (v : Variant) (bs p o : Nat) :
    s.encodeParts v bs p o = (List.range (2 ^ o)).map fun i =>
      (chooseCode v (s.partResiduals bs p o i), s.partResiduals bs p o i) := by
  simp only [State.encodeParts, readResRun_part]

@[simp] theorem length_encodeParts (s : State) (v : Variant) (bs p o : Nat) :
    (s.encodeParts v bs p o).length = 2 ^ o := by simp [encodeParts_eq]

theorem encodeParts_lengths (s : State) (v : Variant) (bs p o : Nat) :
    (s.encodeParts v bs p o).map (fun q => q.2.length) = partitionLengths bs p o := by
  rw [← partLens_eq]
  simp only [State.encodeParts, partLens, List.map_map]
  exact List.map_congr_left fun i _ => by simp [State.readResRun]

/-- Partitions of these lengths are 2^o, and hold bs - p residuals together. -/
theorem lengths_of_parts {parts : List Part} {bs p o : Nat}
    (h : parts.map (fun q => q.2.length) = partitionLengths bs p o) (hd : bs % 2 ^ o = 0) (hp : p ≤ bs / 2 ^ o) :
    parts.length = 2 ^ o ∧ (parts.map (fun q => q.2)).flatten.length = bs - p := by
  constructor
  · have := congrArg List.length h
    have := Nat.two_pow_pos o
    simp [partitionLengths] at *; omega
  · rw [List.length_flatten, ← partitionLengths_sum hd hp, ← h]; simp [Function.comp_def]

/-- The residuals of the partitions, one after the other, are RES[0..bs - p - 1] (R203). -/
theorem partResiduals_flatten (s : State) {bs p o : Nat} (hd : bs % 2 ^ o = 0) (hp : p ≤ bs / 2 ^ o) :
    ((List.range (2 ^ o)).map (fun i => s.partResiduals bs p o i)).flatten = s.readResRun 0 (bs - p) := by
  have h2 := Nat.two_pow_pos o
  obtain ⟨L, rfl⟩ : 2 ^ o ∣ bs := Nat.dvd_of_mod_eq_zero hd
  have hL : 2 ^ o * L / 2 ^ o = L := Nat.mul_div_cancel_left _ h2
  rw [hL] at hp
  have key : ∀ n, 1 ≤ n →
      ((List.range n).map (fun i => s.partResiduals (2 ^ o * L) p o i)).flatten = s.readResRun 0 (n * L - p) := by
    intro n hn
    induction n with
    | zero => omega
    | succ n ih =>
      rw [List.range_succ, List.map_append, List.flatten_append]
      by_cases h0 : n = 0
      · subst h0; simp [State.partResiduals, hL]
      · have hle : L ≤ n * L := Nat.le_mul_of_pos_left _ (by omega)
        rw [ih (by omega), show (n + 1) * L - p = (n * L - p) + L by rw [Nat.add_mul]; omega]
        simp only [List.map_cons, List.map_nil, List.flatten_cons, List.flatten_nil, List.append_nil,
          State.partResiduals, h0, if_false, hL, State.readResRun, ← List.map_append]
        congr 1
        simpa using List.range'_append_1 (s := 0) (m := n * L - p) (n := L)
  exact key _ h2

/-! ### Masks and draws -/

/-- A mask is 0 exactly when every check passes (R251, R257). -/
theorem failMask_eq_zero {l : List Bool} : failMask l = 0 ↔ ∀ ok ∈ l, ok = true := by
  induction l with
  | nil => simp [failMask]
  | cons b l ih => cases b <;> simp [failMask, ih]; try omega

/-- The drawn cursor lies from `start` to the end of the stream (U4). -/
theorem drawInPos_bounds (s : State) {start : Nat} (h : start ≤ s.cfg.inBits.length) :
    start ≤ (drawInPos start s).inPos ∧ (drawInPos start s).inPos ≤ s.cfg.inBits.length := by
  have := Nat.mod_lt (Config.posDraw s.draws) (show s.cfg.inBits.length - start + 1 > 0 by omega)
  simp only [drawInPos]; omega

/-! ### Every way ENCODE and DECODE can end -/

/-- ENCODE either fails before any effect, or its checks passed and it is `encodeCore` (R220, R221). -/
theorem execEncodeSection_cases {sub : Bool} {v : Variant} {s t : State} (h : execEncodeSection sub v s = .next t) :
    (∃ c adv, (c = .outOfRange ∨ c = .invalidPartitionGeometry) ∧ t = codecFail c adv s) ∨
    (s.arg 2 ≤ 15 ∧ s.arg 0 ≤ 65535 ∧ geom (s.arg 0) (s.arg 1) (s.arg 2) = true ∧
      t = encodeCore v (s.arg 0) (s.arg 1) (s.arg 2) s) := by
  simp only [execEncodeSection] at h
  split at h
  · cases h; exact .inl ⟨_, _, .inl rfl, rfl⟩
  · split at h
    · cases h; exact .inl ⟨_, _, .inl rfl, rfl⟩
    · split at h
      · cases h; exact .inl ⟨_, _, .inl rfl, rfl⟩
      · split at h
        · cases h; exact .inl ⟨_, _, .inr rfl, rfl⟩
        · cases h
          exact .inr ⟨by omega, by omega, by simp_all, rfl⟩

/-- DECODE after its order field, as `decodeOrdered` can end. -/
theorem decodeOrdered_cases (sub : Bool) (v : Variant) (o start : Nat) (rd : Reader) (s : State) :
    (∃ c, (c = .outOfRange ∨ c = .invalidPartitionGeometry) ∧
      decodeOrdered sub v o start rd s = codecFail c (orderAdvisory o) { s with inPos := rd.pos }) ∨
    (geom (s.arg 0) (s.arg 1) o = true ∧ decodeOrdered sub v o start rd s =
      decodeCore v (s.arg 0) (s.arg 1) o start rd s) := by
  simp only [decodeOrdered]
  split
  · exact .inl ⟨_, .inl rfl, rfl⟩
  · split
    · exact .inl ⟨_, .inr rfl, rfl⟩
    · rename_i hg
      exact .inr ⟨by simpa using hg, rfl⟩

/-- DECODE inside the partitions, as `decodeCore` can end (R230, R236). -/
theorem decodeCore_cases (v : Variant) (bs p o start : Nat) (rd : Reader) (s : State) :
    (∃ e, readParts v (partLens bs p o) rd = .error e ∧ decodeCore v bs p o start rd s =
      codecFail e.code (orderAdvisory o) (drawContents (2 ^ o) (bs - p) (drawInPos start (writeHeader o v s)))) ∨
    (∃ parts rd', readParts v (partLens bs p o) rd = .ok (parts, rd') ∧ decodeCore v bs p o start rd s =
      finish (BitVec.ofNat 64 (rd'.pos - start)) (orderAdvisory o) (setCvalid true
        { writeResiduals parts (writeCodes v parts (writeHeader o v s)) with inPos := rd'.pos })) := by
  simp only [decodeCore]
  split
  · rename_i e he; exact .inl ⟨e, he, rfl⟩
  · rename_i parts rd' he; exact .inr ⟨parts, rd', he, rfl⟩

/-- DECODE is refused, fails before the order field, fails on it, or goes on behind it (R230, R235). -/
theorem execDecodeSection_cases {sub : Bool} {v : Variant} {s t : State} (h : execDecodeSection sub v s = .next t) :
    (s.fhv = .rejected ∧ t = raise .illegalState 0 .clear s) ∨
    (s.fhv ≠ .rejected ∧ s.arg 0 > 65535 ∧ t = codecFail .outOfRange .clear s) ∨
    (s.fhv ≠ .rejected ∧ s.arg 0 ≤ 65535 ∧ (s.cfg.inBits.drop s.inPos).length < 4 ∧
      t = codecFail .truncatedStream .clear (drawInPos s.inPos s)) ∨
    (∃ o rest, s.fhv ≠ .rejected ∧ s.arg 0 ≤ 65535 ∧ o ≤ 15 ∧ s.inPos + 4 + rest.length = s.cfg.inBits.length ∧
      readBits 4 s.reader = .ok (o, ⟨s.inPos + 4, rest⟩) ∧
      t = decodeOrdered sub v o s.inPos ⟨s.inPos + 4, rest⟩ s) := by
  simp only [execDecodeSection] at h
  split at h
  · rename_i hf; cases h; exact .inl ⟨hf, rfl⟩
  · rename_i hf
    split at h
    · rename_i hb; cases h; exact .inr (.inl ⟨hf, hb, rfl⟩)
    · rename_i hb
      split at h
      · rename_i e he
        cases h
        obtain ⟨rfl, hl⟩ := readBits_error.1 he
        exact .inr (.inr (.inl ⟨hf, by omega, by simpa [State.reader] using hl, rfl⟩))
      · rename_i o rd he
        cases h
        obtain ⟨pre, h1, h2, h3, h4⟩ := readBits_ok he
        obtain ⟨pos, rest⟩ := rd
        obtain rfl : pos = s.inPos + 4 := h3
        refine .inr (.inr (.inr ⟨o, rest, hf, by omega, by omega, ?_, he, rfl⟩))
        have := congrArg List.length h1
        simp [State.reader] at this; omega

end Sys2Proof.Machine
end

