-- ==== Sys2Proof/Laws/PerInstr.lean ====
section
/-! SUPPORT. The statement made of every command, one lemma a constructor: the encoder's word is legal by the rules of
the command word (spec/30_encoding.md R100 to R104), said without the decoder. -/

namespace Sys2Proof.Laws.EncodedWordLegal

/-- The word of the command is legal and its bits [31:11] are 0 (R100, R104). -/
def Statement (i : Instr) : Prop := CommandWord.wellFormed (encode i) = true

theorem nop : Statement .nop := rfl
theorem valBlockSize (s : Bool) : Statement (.valBlockSize s) := by cases s <;> rfl
theorem valChannels : Statement .valChannels := rfl
theorem valBps : Statement .valBps := rfl
theorem valSampleRate (z : Bool) : Statement (.valSampleRate z) := by cases z <;> rfl
theorem valLpcOrder (s : Bool) : Statement (.valLpcOrder s) := by cases s <;> rfl
theorem valPartOrder (s : Bool) : Statement (.valPartOrder s) := by cases s <;> rfl
theorem ensureCapacity : Statement .ensureCapacity := rfl
theorem setHeader (v : Variant) : Statement (.setHeader v) := by cases v <;> rfl
theorem setPartition : Statement .setPartition := rfl
theorem getPartition : Statement .getPartition := rfl
theorem encodeSection (s : Bool) (v : Variant) : Statement (.encodeSection s v) := by cases s <;> cases v <;> rfl
theorem decodeSection (s : Bool) (v : Variant) : Statement (.decodeSection s v) := by cases s <;> cases v <;> rfl
theorem siLoad : Statement .siLoad := rfl
theorem streamReset : Statement .streamReset := rfl
theorem frameBegin : Statement .frameBegin := rfl
theorem fhvValidate (z : Bool) : Statement (.fhvValidate z) := by cases z <;> rfl
theorem subsetCheck : Statement .subsetCheck := rfl

end Sys2Proof.Laws.EncodedWordLegal
end

