-- ==== Sys2Proof/Machine/HostAsm.lean ====
section
/-! DEFINITION. The host's program lines and the bus accesses they expand to (spec/30_encoding.md R120, R121). A branch on
STATUS.CODE and the comparison of an `expect` are the host's, not the block's (R121, R292): here they are their read. -/

namespace Sys2Proof.Machine

/-- One line of a host program. -/
inductive HostLine where
  /-- `wr NAME, v` -/
  | wr (r : RegName) (v : Int)
  /-- `rd NAME` -/
  | rd (r : RegName)
  /-- `cmd MNEMONIC[.flags]` -/
  | cmd (i : Instr)
  /-- `MNEMONIC[.flags] a0, …, am` -/
  | call (i : Instr) (operands : List Int)
  /-- `wres i, v0, …, vm` -/
  | wres (i : Nat) (vs : List Int)
  /-- `expect NAME, v`: its read -/
  | expect (r : RegName) (v : Int)
  /-- `if CODE != c goto L`: its read of STATUS -/
  | ifCode (c : StatusCode)
deriving DecidableEq, Repr

/-- `MemWrite(offset(NAME), 4, v)` (R120). R120 gives the 32-bit two's-complement pattern of a negative literal for RES
alone; for every other register, and for any literal that fits no 32-bit pattern (2^32 and above, below -2^31), the spec
gives no value written, and the literal is taken modulo 2^32 here (DESIGN CHOICE, log entry 13). -/
def writeEvent (r : RegName) (v : Int) : HostEvent :=
  .access (.write (BitVec.ofNat 20 r.offset) .w32 (BitVec.ofInt 32 v))

/-- `MemRead(offset(NAME), 4)` (R120). -/
def readEvent (r : RegName) : HostEvent := .access (.read (BitVec.ofNat 20 r.offset) .w32)

/-- `wr RES[i], v` at the offset 0x40000 + 4i, a negative literal its 32-bit two's-complement pattern (R120); a literal
that fits no 32-bit pattern is taken modulo 2^32, as in `writeEvent` (DESIGN CHOICE, log entry 13). There is no RES[65536]
(R48), and the spec does not say what a line that runs past RES[65535] does: here each entry past it is a write at 0x80000,
the formula's offset for RES[65536], which is reserved and so a bus error (DESIGN CHOICE, log entry 13). -/
def writeResEvent (i : Nat) (v : Int) : HostEvent :=
  .access (.write (BitVec.ofNat 20 (min (0x40000 + 4 * i) 0x80000)) .w32 (BitVec.ofInt 32 v))

/-- The accesses a line expands to (R120, R121). An operand past ARG7 has no register and is left out (DESIGN CHOICE, log
entry 13). -/
def HostLine.expand : HostLine → List HostEvent
  | .wr r v    => [writeEvent r v]
  | .rd r      => [readEvent r]
  | .cmd i     => [cmdWrite (encode i)]
  | .call i as => (List.finRange 8).zipWith (fun k a => writeEvent (.arg k) a) as ++ [cmdWrite (encode i)]
  | .wres i vs => vs.zipIdx.map (fun (v, j) => writeResEvent (i + j) v)
  | .expect r _ => [readEvent r]
  | .ifCode _  => [readEvent .status]

/-- The state with a host program's accesses as its events (log entry 1). -/
def State.withProgram (s : State) (p : List HostLine) : State := { s with pending := (p.map HostLine.expand).flatten }

end Sys2Proof.Machine
end

