-- ==== Sys2Proof/Tests/Slice0.lean ====
section
/-! SUPPORT. The model's own tests. Expected values are those of spec/95_test_vectors.md (section named at each group), or
are worked by hand from the rule named; a `witness_` theorem shows that the hypotheses of the statement of that name can
be met together, at the ends of the ranges of its clauses. -/

namespace Sys2Proof.Tests

open Sys2Proof Sys2Proof.Machine

/-! ### Helpers -/

/-- The reset state with operands in ARG0, ARG1, …. -/
def withArgs (as : List Nat) : State :=
  let arg (i : Nat) : Word := BitVec.ofNat 32 (as.getD i 0)
  { State.reset with args := #v[arg 0, arg 1, arg 2, arg 3, arg 4, arg 5, arg 6, arg 7] }

/-- The same with residuals in RES[0], RES[1], …. -/
def withRes (as : List Nat) (rs : List Int) : State :=
  { withArgs as with res := Memory.cells 0 (rs.map (BitVec.ofInt 32)) }

/-- Bits from their characters, first bit first; other characters are ignored. -/
def bitsOfString (s : String) : List Bool := (s.toList.filter (fun c => c == '0' || c == '1')).map (· == '1')

/-- The same with an input stream. -/
def withInput (as : List Nat) (bits : List Bool) : State :=
  { withArgs as with cfg := { Config.standard with inBits := bits } }

/-- The reset state with events to come. -/
def withEvents (es : List HostEvent) : State := { State.reset with pending := es }

/-- STATUS, RESULT and ADVISORY after a command. -/
def outputs : Host.Outcome State Fault Refusal → Option (Nat × Nat × Nat)
  | .next t => some (t.statusReg.toNat, t.result.toNat, t.advisoryReg.toNat)
  | _ => none

/-- One view of the state after a command. -/
def after {α : Type} (view : State → α) : Host.Outcome State Fault Refusal → Option α
  | .next t => some (view t)
  | _ => none

/-- The residuals and the 38 bits of vector E1 (section 2.4). -/
def e1Residuals : List Int := [3, -2, 0, 1, -1, 4, 0, 0, 0, 0, 0, 0, 0, 0]
def e1Bits : List Bool := bitsOfString "0001 0001 00010 011 10 010 11 000010 1111 00000"
def e1 : State := withRes [16, 2, 1] e1Residuals

/-- The partitions of vector E1. -/
def e1Parts : List Part :=
  [(.rice 1, [3, -2, 0, 1, -1, 4].map (BitVec.ofInt 32)), (.escaped 0, List.replicate 8 0)]

/-! ### WellFormed refuses each ill-formed word (R104) -/

theorem test_opcodeListed_refuses_reserved : CommandWord.opcodeListed 0x00000007 = false := by decide
theorem test_reservedZero_refuses_bit_11 : CommandWord.reservedZero 0x00000800 = false := by decide
theorem test_flagsAdmitted_refuses_S : CommandWord.flagsAdmitted 0x00000102 = false := by decide
theorem test_flagsAdmitted_refuses_V : CommandWord.flagsAdmitted 0x00000201 = false := by decide
theorem test_flagsAdmitted_refuses_Z : CommandWord.flagsAdmitted 0x00000403 = false := by decide
theorem test_wellFormed_refuses : ([0x00000007, 0x80000000, 0x00000301, 0x00000520] : List Word).all
    (fun w => !CommandWord.wellFormed w) = true := by decide

/-- R80: an input stream of 2^64 bits is too long. -/
theorem test_config_refuses_long_stream (c : Config) (h : c.inBits = List.replicate (2 ^ 64) false) :
    c.wellFormed = false := by
  rw [Config.wellFormed, h, List.length_replicate]; decide

/-! ### Decode: words written out from R100 and R102 (section 2.8), one or more a constructor -/

theorem test_decode_nop : decode 0x00000000 = .ok .nop := by decide
theorem test_decode_val_block_size : decode 0x00000101 = .ok (.valBlockSize true) := by decide
theorem test_decode_val_channels : decode 0x00000002 = .ok .valChannels := by decide
theorem test_decode_val_bps : decode 0x00000003 = .ok .valBps := by decide
theorem test_decode_val_sample_rate : decode 0x00000404 = .ok (.valSampleRate true) := by decide
theorem test_decode_val_lpc_order : decode 0x00000105 = .ok (.valLpcOrder true) := by decide
theorem test_decode_val_part_order : decode 0x00000006 = .ok (.valPartOrder false) := by decide
theorem test_decode_ensure_capacity : decode 0x00000010 = .ok .ensureCapacity := by decide
theorem test_decode_set_header : decode 0x00000211 = .ok (.setHeader .rice2) := by decide
theorem test_decode_set_partition : decode 0x00000012 = .ok .setPartition := by decide
theorem test_decode_get_partition : decode 0x00000013 = .ok .getPartition := by decide
theorem test_decode_encode : decode 0x00000220 = .ok (.encodeSection false .rice2) := by decide
theorem test_decode_decode : decode 0x00000121 = .ok (.decodeSection true .rice) := by decide
theorem test_decode_si_load : decode 0x00000030 = .ok .siLoad := by decide
theorem test_decode_stream_reset : decode 0x00000031 = .ok .streamReset := by decide
theorem test_decode_frame_begin : decode 0x00000032 = .ok .frameBegin := by decide
theorem test_decode_fhv_validate : decode 0x00000433 = .ok (.fhvValidate true) := by decide
theorem test_decode_subset_check : decode 0x00000040 = .ok .subsetCheck := by decide
theorem test_decode_rejects_by_name :
    decode 0x000000FF = .error .reservedOpcode ∧ decode 0x80000000 = .error .reservedBits ∧
    decode 0x00000131 = .error .flagNotAdmitted := by decide
theorem test_decodeTableWord : decodeTableWord 32 0x433 = some (.fhvValidate true) := by decide

/-! ### Validators (section 2.1) -/

theorem test_val_block_size_16_strict :
    outputs (exec (.valBlockSize true) (withArgs [16, 44100])) = some (0x1, 2, 0) := by decide
theorem test_val_block_size_8192_at_48001_strict :
    outputs (exec (.valBlockSize true) (withArgs [8192, 48001])) = some (0x0, 0, 0) := by decide
theorem test_val_channels_9 : outputs (exec .valChannels (withArgs [9])) = some (0x1, 3, 0) := by decide
theorem test_val_bps_25 : outputs (exec .valBps (withArgs [25])) = some (0x0, 0, 1) := by decide
theorem test_val_sample_rate_zero : outputs (exec (.valSampleRate true) (withArgs [0])) = some (0x0, 0, 0) := by
  decide
theorem test_val_sample_rate_above : outputs (exec (.valSampleRate true) (withArgs [655351])) = some (0x1, 3, 0) := by
  decide
theorem test_val_lpc_order_13_strict :
    outputs (exec (.valLpcOrder true) (withArgs [13, 48000])) = some (0x1, 2, 0) := by decide
theorem test_val_part_order_9 : outputs (exec (.valPartOrder false) (withArgs [9])) = some (0x0, 2, 0) := by
  decide

/-! ### Contents (section 2.2) -/

theorem test_ensure_capacity_never_shrinks :
    outputs (exec .ensureCapacity { withArgs [2] with capOrder := 3 }) = some (0x0, 3, 0) := by decide
theorem test_set_header_keeps_capacity :
    after (fun t => (t.prOrder, t.capOrder, t.result.toNat)) (exec (.setHeader .rice) { withArgs [2] with capOrder := 3 }) =
      some (2, 3, 3) := by decide
theorem test_set_partition_sentinel :
    after (fun t => (t.readParam 3, t.readRaw 3)) (exec .setPartition { withArgs [3, 15, 7] with prOrder := 2 }) =
      some (15, 7) := by decide
theorem test_set_partition_index_is_fatal :
    outputs (exec .setPartition { withArgs [4, 0, 0] with prOrder := 2 }) = some (0x105, 0, 0) := by decide
theorem test_get_partition_escaped :
    outputs (exec .getPartition { withArgs [3] with prOrder := 2, param := [(3, 15)], raw := [(3, 7)] }) =
      some (0x0, 0x1070F, 0) := by decide
theorem test_get_partition_15_is_ordinary_under_rice2 :
    outputs (exec .getPartition { withArgs [1] with prOrder := 1, prVariant := .rice2, param := [(1, 15)], raw := [(1, 0)] }) =
      some (0x0, 0xF, 0) := by decide

/-! ### The codec (sections 2.3 to 2.5) -/

theorem test_zigzag : (zigzag 100000, zigzag (-100000)) = (200000, 199999) := by decide
theorem test_choice_tie_stays_rice : chooseCode .rice ([1, -1, 2, -2].map (BitVec.ofInt 32)) = .rice 1 := by
  decide
theorem test_choice_escapes : chooseCode .rice ([1000, 1000, 1000, 1000].map (BitVec.ofInt 32)) = .escaped 11 := by
  decide

/-- Vector E1. -/
theorem test_encode_E1_bits : after (fun t => t.outBits) (exec (.encodeSection false .rice) e1) = some e1Bits := by
  decide +kernel
theorem test_encode_E1_state :
    after (fun t => (t.statusReg, t.result, t.infoReg, t.readParam 0, t.readParam 1, t.readRaw 1))
      (exec (.encodeSection false .rice) e1) = some (0, 38, 0x8101, 1, 15, 0) := by
  decide +kernel

/-- Vectors D1 and D7. -/
theorem test_decode_D1 :
    after (fun t => (t.readResRun 0 14, t.statusReg, t.result, t.inPos, t.infoReg))
      (exec (.decodeSection false .rice) (withInput [16, 2] e1Bits)) =
      some (e1Residuals.map (BitVec.ofInt 32), 0, 38, 38, 0x8101) := by decide
theorem test_decode_D7_overflow :
    outputs (exec (.decodeSection false .rice2) (withInput [16, 15] (bitsOfString "0000 11110 0000"))) =
      some (0x3, 0, 0) := by decide

/-! ### Stream, frame and Subset (sections 2.6 and 2.7) -/

theorem test_si_load_mask :
    outputs (exec .siLoad (withArgs [0, 0, 3, 15, 65536, 0, 0])) = some (0x1, 0x1F, 0) := by decide
theorem test_si_load_total :
    after (fun t => (t.si.total, t.siValid, t.advisory.bpsGt24))
      (exec .siLoad (withArgs [96000, 8, 32, 16, 65535, 0xFFFFFFFF, 0])) = some (0xFFFFFFFF, true, true) := by
  decide
theorem test_stream_reset_clears :
    after (fun t => (t.siValid, t.si, t.fhv))
      (exec .streamReset { State.reset with siValid := true, si := ⟨1, 1, 4, 16, 16, 7⟩, fhv := .rejected }) =
      some (false, StreamInfo.zero, .unvalidated) := by decide
theorem test_frame_begin : after (fun t => t.fhv) (exec .frameBegin { State.reset with fhv := .rejected }) =
    some .unvalidated := by decide
theorem test_fhv_zero_rate_without_stream_info :
    after (fun t => (t.result, t.fhv)) (exec (.fhvValidate true) (withArgs [4096, 0, 2, 16])) =
      some (2, .rejected) := by decide
theorem test_fhv_block_size_above_max :
    after (fun t => (t.result, t.fhv)) (exec (.fhvValidate false)
      { withArgs [8192, 44100, 9, 16] with siValid := true, si := ⟨44100, 2, 16, 4096, 4096, 441000⟩ }) =
      some (5, .rejected) := by decide
theorem test_subset_check_compliant :
    outputs (exec .subsetCheck (withArgs [16384, 96000, 2, 24, 32, 8])) = some (0x0, 0x100, 0) := by decide
theorem test_subset_check_illegal :
    outputs (exec .subsetCheck (withArgs [65536, 44100, 2, 16, 0, 16])) = some (0x0, 0x221, 0) := by decide
theorem test_nop_keeps_fatal :
    outputs (exec .nop { State.reset with fatal := true, code := .indexOutOfRange }) = some (0x100, 0, 0) := by
  decide

/-! ### The bus (section 2.9) and the host's lines (R120) -/

theorem test_bus_write_res_65535 :
    after (fun t => t.readRes 65535) (step (withEvents [.access (.write 0x7FFFC .w32 0x80000000)])) =
      some 0x80000000 := by decide
theorem test_bus_error_misaligned :
    after (fun t => t.reply) (step (withEvents [.access (.read 0x00042 .w32)])) = some (.error .misaligned) := by
  decide
/-- R340: a write of ARG0 while reset is asserted; and the release of an asserted reset clears FATAL. -/
theorem test_access_while_reset_asserted :
    after (fun t => (t.args[0], t.reply, t.inReset))
      (step { withEvents [.access (.write 0x00040 .w32 5)] with inReset := true }) = some (0, .none, true) := by decide
theorem test_release_of_reset :
    after (fun t => (t.fatal, t.capOrder, t.inReset))
      (step { withEvents [.releaseReset] with inReset := true, fatal := true, capOrder := 3 }) = some (false, 0, false) := by
  decide
theorem test_withFetchWord_runs_the_word :
    step (State.reset.withFetchWord 32 0x40) = exec .subsetCheck { State.reset with reply := .written } := rfl
theorem test_call_line_expands :
    HostLine.expand (.call .setPartition [0, 5, 0]) =
      [.access (.write 0x00040 .w32 0), .access (.write 0x00044 .w32 5), .access (.write 0x00048 .w32 0),
       .access (.write 0x00000 .w32 0x12)] := by decide

/-- R120: RES[65535] stands at 0x7FFFC; log entry 13: what follows it at the reserved 0x80000, a bus error. -/
theorem test_wres_past_the_end :
    HostLine.expand (.wres 65535 [1, 2]) = [.access (.write 0x7FFFC .w32 1), .access (.write 0x80000 .w32 2)] ∧
    after (fun t => (t.res, t.reply)) (step (withEvents [.access (.write 0x80000 .w32 2)])) =
      some ([], .error .reservedOffset) := by decide

/-! ### Witnesses: the hypotheses of each statement met together -/

/-- The state with one host access to come, then nothing. -/
def withAccess (a : BusAccess) : State := withEvents [.access a]

/-- Reset asserted on a block in use, an access made while it is, and its release. -/
theorem witness_AssertedResetAnswersNoAccess :
    { e1 with pending := [.assertReset, cmdWrite 0] }.pending = .assertReset :: [cmdWrite 0] ∧
    { e1 with inReset := true, pending := [cmdWrite 0] }.pending = .access (.write 0 .w32 0) :: [] ∧
    { e1 with inReset := true, pending := [cmdWrite 0] }.inReset = true := ⟨rfl, rfl, rfl⟩
theorem witness_PlatformResetRestoresTheResetState :
    { e1 with inReset := true, fatal := true, pending := [.releaseReset, cmdWrite 0] }.pending =
      .releaseReset :: [cmdWrite 0] ∧
    { e1 with inReset := true, fatal := true, pending := [.releaseReset, cmdWrite 0] }.inReset = true := ⟨rfl, rfl⟩

theorem witness_StepRunsTheCommandWritten :
    (withAccess (.write 0 .w32 0x433)).NextAccess (.write 0 .w32 0x433) [] ∧
      decode 0x433 = .ok (.fhvValidate true) := ⟨⟨rfl, rfl⟩, by decide⟩

/-- One word for each way a word is illegal. -/
theorem witness_IllegalWordCompletesWithIllegalCommand :
    (withAccess (.write 0 .w32 0x07)).NextAccess (.write 0 .w32 0x07) [] ∧
    ((0x07 : Word).extractLsb' 0 8).toNat ∉ CommandWord.opcodes ∧ (0x800 : Word).extractLsb' 11 21 ≠ 0 ∧
    (0x100 : Word).getLsbD 8 = true ∧ ((0x100 : Word).extractLsb' 0 8).toNat ∉ CommandWord.admitS ∧
    (0x201 : Word).getLsbD 9 = true ∧ ((0x201 : Word).extractLsb' 0 8).toNat ∉ CommandWord.admitV ∧
    (0x403 : Word).getLsbD 10 = true ∧ ((0x403 : Word).extractLsb' 0 8).toNat ∉ CommandWord.admitZ :=
  ⟨⟨rfl, rfl⟩, by decide⟩

theorem witness_EveryStepCompletes : State.reset.pending = [] := rfl

theorem witness_RegisterReadsReturnTheirFields :
    (withAccess (.read 0x0005C .w32)).NextAccess (.read (BitVec.ofNat 20 (0x040 + 4 * 7)) .w32) [] := ⟨rfl, rfl⟩

theorem witness_ResidualWindowReadsAndWritesOneEntry :
    (65535 < 65536) ∧ (withAccess (.write 0x7FFFC .w32 5)).NextAccess
      (.write (BitVec.ofNat 20 (0x40000 + 4 * 65535)) .w32 5) [] ∧
    (withAccess (.write 0x40000 .w32 5)).NextAccess (.write (BitVec.ofNat 20 (0x40000 + 4 * 0)) .w32 5) [] :=
  ⟨by decide, ⟨rfl, rfl⟩, rfl, rfl⟩

theorem witness_ArgWriteSetsOneRegister :
    (withAccess (.write 0x0005C .w32 5)).NextAccess (.write (BitVec.ofNat 20 (0x040 + 4 * (7 : Fin 8).val)) .w32 5) [] ∧
    (withAccess (.write 0x00040 .w32 5)).NextAccess (.write (BitVec.ofNat 20 (0x040 + 4 * (0 : Fin 8).val)) .w32 5) [] :=
  ⟨⟨rfl, rfl⟩, rfl, rfl⟩

/-- The ends of each range of offsets, and each way of its own. -/
theorem witness_BusErrorsChangeNothing :
    AccessWidth.w8 ≠ .w32 ∧ AccessWidth.w64 ≠ .w32 ∧ (0x00042 : BitVec 20).toNat % 4 ≠ 0 ∧
    ([0x00028, 0x0003F] : List (BitVec 20)).all (fun a => 0x028 ≤ a.toNat && a.toNat ≤ 0x03F) = true ∧
    ([0x0007C, 0x3FFFF] : List (BitVec 20)).all (fun a => 0x07C ≤ a.toNat && a.toNat ≤ 0x3FFFF) = true ∧
    ([0x80000, 0xFFFFF] : List (BitVec 20)).all (fun a => 0x80000 ≤ a.toNat) = true ∧
    ([0x00004, 0x00027] : List (BitVec 20)).all (fun a => 0x004 ≤ a.toNat && a.toNat ≤ 0x027) = true ∧
    ([0x00060, 0x0007B] : List (BitVec 20)).all (fun a => 0x060 ≤ a.toNat && a.toNat ≤ 0x07B) = true ∧
    (withAccess (.read 0x00042 .w32)).NextAccess (.read 0x00042 .w32) [] := by
  refine ⟨by decide, by decide, by decide, by decide, by decide, by decide, by decide, by decide, rfl, rfl⟩

/-- Both ends of each range of reserved opcodes. -/
theorem witness_ReservedOpcodesAreIllegal :
    ([0x07, 0x0F, 0x14, 0x1F, 0x22, 0x2F, 0x34, 0x3F, 0x41, 0xFF] : List Word).all (fun w =>
      decide (let n := (w.extractLsb' 0 8).toNat;
        (0x07 ≤ n ∧ n ≤ 0x0F) ∨ (0x14 ≤ n ∧ n ≤ 0x1F) ∨ (0x22 ≤ n ∧ n ≤ 0x2F) ∨ (0x34 ≤ n ∧ n ≤ 0x3F) ∨
          (0x41 ≤ n ∧ n ≤ 0xFF))) = true := by decide

/-- Operand registers that hold the operands asked for. -/
theorem witness_ValBlockSizeChecksBothRegimes :
    (withArgs [4608, 48000]).args[0].toNat = 4608 ∧ (withArgs [4608, 48000]).args[1].toNat = 48000 := by decide
theorem witness_ValChannelsAcceptsOneToEight :
    (withArgs [8]).args[0].toNat = 8 ∧ (withArgs [0]).args[0].toNat = 0 ∧ (withArgs [9]).args[0].toNat = 9 := by decide
theorem witness_ValBpsFlagsAboveTwentyFour :
    (withArgs [32]).args[0].toNat = 32 ∧ (withArgs [3]).args[0].toNat = 3 ∧ (withArgs [33]).args[0].toNat = 33 := by
  decide
theorem witness_ValSampleRateAllowsZeroOnlyWithZ :
    (withArgs [0]).args[0].toNat = 0 ∧ (withArgs [655350]).args[0].toNat = 655350 ∧
    (withArgs [655351]).args[0].toNat = 655351 := by decide
theorem witness_ValLpcOrderChecksBothRegimes :
    (withArgs [13, 48000]).args[0].toNat = 13 ∧ (withArgs [13, 48000]).args[1].toNat = 48000 := by decide
theorem witness_ValPartOrderChecksBothRegimes : (withArgs [15]).args[0].toNat = 15 := by decide

/-- Two states that differ in everything but the operand of VAL_PART_ORDER; and one with the parameters of another. -/
theorem witness_ValidatorsDependOnOperandsAlone :
    (let s' := { withInput [9, 7] [true] with fatal := true, res := [(0, 1)], fhv := .rejected };
      SameOperands (.valPartOrder true) (withArgs [9]) s' ∧ SameOperands (.valBlockSize true) (withArgs [9, 7]) s' ∧
      (withArgs [9, 7]).cfg.canonBlockSizes = s'.cfg.canonBlockSizes ∧
      (withArgs [9, 7]).cfg.subsetMaxBsHighRate = s'.cfg.subsetMaxBsHighRate) ∧
    ¬ (Instr.valPartOrder true = .valBlockSize false ∨ Instr.valPartOrder true = .valBlockSize true ∨
      Instr.valPartOrder true = .subsetCheck) := by
  refine ⟨⟨?_, ?_, rfl, rfl⟩, by decide⟩ <;> (unfold SameOperands; decide)

theorem witness_EnsureCapacityGrowsToTheOrder :
    (withArgs [15]).args[0].toNat = 15 ∧ (withArgs [16]).args[0].toNat = 16 := by decide
theorem witness_SetHeaderWritesOrderAndVariant :
    (withArgs [15]).args[0].toNat = 15 ∧ (withArgs [16]).args[0].toNat = 16 := by decide

/-- The last index of order 15, escaped with the widest raw width; the index just out of range; a parameter above the
sentinel, a raw width above 31, a raw width with no escape. -/
theorem witness_SetPartitionWritesOneLegalEntry :
    let s := { withArgs [32767, 15, 31] with prOrder := 15 }
    (s.args[0].toNat = 32767 ∧ s.args[1].toNat = 15 ∧ s.args[2].toNat = 31 ∧
      15 = (if s.prVariant = .rice then 15 else 31) ∧ 32767 < 2 ^ s.prOrder.toNat ∧ 15 ≤ 15 ∧ 31 ≤ 31 ∧
      (15 = 15 ∨ 31 = 0)) ∧
    (withArgs [1, 0, 0]).args[0].toNat ≥ 2 ^ State.reset.prOrder.toNat ∧
    (withArgs [0, 16, 0]).args[1].toNat > 15 ∧ (withArgs [0, 15, 32]).args[2].toNat > 31 ∧
    ((withArgs [0, 14, 1]).args[1].toNat ≠ 15 ∧ (withArgs [0, 14, 1]).args[2].toNat ≠ 0) := by decide
theorem witness_GetPartitionReturnsTheEntry :
    let s := { withArgs [1] with prOrder := 1, prVariant := .rice2 }
    s.args[0].toNat = 1 ∧ 31 = (if s.prVariant = .rice then 15 else 31) ∧ 1 < 2 ^ s.prOrder.toNat ∧
      (withArgs [1]).args[0].toNat ≥ 2 ^ State.reset.prOrder.toNat := by decide

/-- The last parameter of the range, and a smaller parameter than kbest (section 2.3). -/
theorem witness_KbestIsTheLeastOfLeastCost :
    14 ≤ (if Variant.rice = .rice then 14 else 30) ∧ 0 < kbest (([1, -1, 2, -2] : List Int).map (BitVec.ofInt 32)) .rice := by
  decide

/-- One residual of 0, and the tie of section 2.3. -/
theorem witness_EmptyZeroAndTiedPartitions :
    1 ≤ 1 ∧ (let rs := ([1, -1, 2, -2] : List Int).map (BitVec.ofInt 32);
      cost rs (kbest rs .rice) = rs.length * rawWidth rs) := by decide

theorem witness_ReadBitsTakesTheNextBitsMsbFirst :
    3 ≤ (⟨0, [true, false, true]⟩ : Reader).rest.length ∧ (⟨0, [true, false, true]⟩ : Reader).rest.length < 4 := by
  decide
theorem witness_RiceReadBoundsTheQuotient :
    3 ≤ (2 ^ 32 - 1) >>> 30 ∧ 2 ^ 30 - 1 < 2 ^ 30 ∧ 30 ≤ 30 ∧ ([] : List Bool).length < 30 ∧ 4 = ((2 ^ 32 - 1) >>> 30) + 1 := by
  decide

/-- Vector E1, whose first partition is Rice and whose second is escaped; and the largest order, that a strict command may
not use. -/
theorem witness_EncodeWritesTheSection :
    e1.args[0].toNat = 16 ∧ e1.args[1].toNat = 2 ∧ e1.args[2].toNat = 1 ∧ 1 ≤ 15 ∧ (true = true → 1 ≤ 8) ∧
      16 ≤ 65535 ∧ 16 % 2 ^ 1 = 0 ∧ 2 ≤ 16 / 2 ^ 1 ∧ 32768 % 2 ^ 15 = 0 ∧ 1 ≤ 32768 / 2 ^ 15 ∧
      (let P := e1.partResiduals 16 2 1;
        ¬ (rawWidth (P 0) ≤ 31 ∧ cost (P 0) (kbest (P 0) .rice) > (P 0).length * rawWidth (P 0)) ∧
        (rawWidth (P 1) ≤ 31 ∧ cost (P 1) (kbest (P 1) .rice) > (P 1).length * rawWidth (P 1))) := by decide
theorem witness_EncodeAloneAdvancesOutLen :
    (∀ sub v, Instr.siLoad ≠ .encodeSection sub v) ∧
      ∃ t, exec .siLoad (withArgs [44100, 2, 16, 4096, 4096]) = .next t :=
  ⟨fun _ _ h => (nomatch h), _, rfl⟩
/-- Each check of ENCODE, failing alone (section 2.4). -/
theorem witness_FailingEncodeWritesNothing :
    (withArgs [16, 0, 16]).args[2].toNat > 15 ∧ (withArgs [4096, 0, 9]).args[2].toNat > 8 ∧
      (withArgs [65536, 0, 0]).args[0].toNat > 65535 ∧ 100 % 2 ^ 3 ≠ 0 ∧ 4096 / 2 ^ 10 < 8 := by decide

theorem e1Parts_legal : ∀ q ∈ e1Parts, LegalPart .rice q := by
  simp only [e1Parts, List.forall_mem_cons, LegalPart, FitsWidth]
  refine ⟨by decide, ⟨by decide, ?_⟩, by simp⟩
  simp

/-- Vector E1 as a legal section, two bits of another field behind it. -/
theorem witness_DecodeReadsEveryLegalSection :
    let s := withInput [16, 2] (e1Bits ++ [true, false])
    (s.args[0].toNat = 16 ∧ s.args[1].toNat = 2 ∧ s.fhv ≠ .rejected ∧ 16 % 2 ^ 1 = 0 ∧ 2 ≤ 16 / 2 ^ 1) ∧
      (∀ q ∈ e1Parts, LegalPart .rice q) ∧ e1Parts.map (fun q => q.2.length) = partitionLengths 16 2 1 ∧
      s.cfg.inBits.drop s.inPos = sectionBits .rice 1 e1Parts ++ [true, false] :=
  ⟨by decide, e1Parts_legal, by decide, by decide +kernel⟩

theorem witness_DecodeOfEncodeRestoresTheResiduals :
    (∃ t, exec (.encodeSection false .rice) e1 = .next t ∧ t.outBits = e1.outBits ++ e1Bits) ∧
      e1.args[0].toNat = 16 ∧ e1.args[1].toNat = 2 ∧ e1.args[2].toNat = 1 ∧ 16 % 2 ^ 1 = 0 ∧ 2 ≤ 16 / 2 ^ 1 ∧
      (true = true → 1 ≤ 8) ∧
      (let d := withInput [16, 2] e1Bits;
        d.args[0].toNat = 16 ∧ d.args[1].toNat = 2 ∧ d.fhv ≠ .rejected ∧ d.cfg.inBits.drop d.inPos = e1Bits ++ []) :=
  ⟨⟨_, rfl, by decide +kernel⟩, by decide⟩

theorem witness_DecodeIsRefusedExactlyWhileRejected :
    { State.reset with fhv := .rejected }.fhv = .rejected ∧ { State.reset with fhv := .validated }.fhv ≠ .rejected := by
  decide

/-- Vectors D11, D3, D5, D6 and D13. -/
theorem witness_DecodeFailuresBeforeThePartitions :
    (withInput [65536, 2] e1Bits).args[0].toNat > 65535 ∧ State.reset.fhv ≠ .rejected ∧
      (let s := withInput [16, 0] [false, false, false]; (s.cfg.inBits.drop s.inPos).length < 4) ∧
      (let s := withInput [4096, 0] [true, false, false, true]; s.cfg.inBits.drop s.inPos = bitsOf 4 9 ++ []) ∧
      9 > 8 ∧ 100 % 2 ^ 3 ≠ 0 ∧ 16 / 2 ^ 0 < 17 := by decide

/-- Vectors D4 and D7. -/
theorem witness_FailedDecodeLeavesFreeValues :
    (let s := withInput [16, 2] (e1Bits.take 20);
      (∃ t, exec (.decodeSection false .rice) s = .next t ∧ t.code = .truncatedStream) ∧
        s.cfg.inBits.drop s.inPos = bitsOf 4 1 ++ (e1Bits.take 20).drop 4) ∧
    (let s := withInput [16, 15] (bitsOfString "0000 11110 0000");
      (∃ t, exec (.decodeSection false .rice2) s = .next t ∧ t.code = .parameterOutOfRange) ∧
        s.cfg.inBits.drop s.inPos = bitsOf 4 0 ++ bitsOfString "11110 0000") :=
  ⟨⟨⟨_, rfl, rfl⟩, by decide⟩, ⟨⟨_, rfl, rfl⟩, by decide⟩⟩

/-- Vector E1 cut after 37 bits. -/
theorem witness_TruncatedSectionFailsDecode :
    (∀ q ∈ e1Parts, LegalPart .rice q) ∧ e1Parts.map (fun q => q.2.length) = partitionLengths 16 2 1 ∧
      sectionBits .rice 1 e1Parts = e1Bits.take 37 ++ [false] ∧ [false] ≠ [] ∧
      (let s := withInput [16, 2] (e1Bits.take 37);
        s.cfg.inBits.drop s.inPos = e1Bits.take 37 ∧ s.args[0].toNat = 16 ∧ s.fhv ≠ .rejected) :=
  ⟨e1Parts_legal, by decide, by decide +kernel, by decide, by decide⟩

/-- Vector D7; and a legal partition, then the code of one residual, then the overflow. -/
theorem witness_OverflowingCodeFailsDecode :
    (let s := withInput [16, 15] (bitsOfString "0000 11110 0000 1");
      s.args[0].toNat = 16 ∧ s.args[1].toNat = 15 ∧ s.fhv ≠ .rejected ∧ 16 % 2 ^ 0 = 0 ∧ 15 ≤ 16 / 2 ^ 0 ∧
      partitionLengths 16 15 0 = [] ++ 1 :: [] ∧ 30 ≤ (if Variant.rice2 = .rice then 14 else 30) ∧
      s.cfg.inBits.drop s.inPos = sectionBits .rice2 0 [] ++ bitsOf (paramWidth .rice2) 30 ++ [] ++
        List.replicate ((2 ^ 32 - 1) >>> 30 + 1) false ++ [true]) ∧
    (∀ q ∈ [((.rice 0, [0]) : Part)], LegalPart .rice2 q) ∧
    (let s := withInput [4, 1] (bitsOfString "0001 00000 1 11110 1" ++ List.replicate 30 false ++ bitsOfString "0000");
      partitionLengths 4 1 1 = [((.rice 0, [0]) : Part)].map (fun q => q.2.length) ++ 2 :: [] ∧ [(0 : Word)].length < 2 ∧
      s.cfg.inBits.drop s.inPos = sectionBits .rice2 1 [(.rice 0, [0])] ++ bitsOf (paramWidth .rice2) 30 ++
        ([(0 : Word)].map (riceBits 30)).flatten ++ List.replicate ((2 ^ 32 - 1) >>> 30 + 1) false ++ []) := by
  refine ⟨by decide, ?_, by decide⟩
  simp [LegalPart, escapeSentinel, paramWidth]

/-- The registers past the operands of SI_LOAD, DECODE and NOP changed. -/
theorem witness_CommandsReadOnlyTheirOperands :
    SameOperands .siLoad e1 { e1 with args := e1.args.set 7 5 } ∧ (∃ t, exec .siLoad e1 = .next t) ∧
    SameOperands (.decodeSection false .rice) e1 { e1 with args := e1.args.set 2 5 } ∧
    (∃ t, exec (.decodeSection false .rice) e1 = .next t) ∧
    SameOperands .nop e1 { e1 with args := e1.args.set 0 5 } := by
  refine ⟨?_, ⟨_, rfl⟩, ?_, ⟨_, rfl⟩, ?_⟩ <;> (unfold SameOperands; decide)

/-- A record at the ends of its ranges, one field out of range, and a StreamInfo already loaded. -/
theorem witness_SiLoadChecksThenLoads :
    (let s := withArgs [655350, 8, 32, 16, 65535];
      s.args[0].toNat = 655350 ∧ s.args[1].toNat = 8 ∧ s.args[2].toNat = 32 ∧ s.args[3].toNat = 16 ∧
        s.args[4].toNat = 65535 ∧ s.siValid = false) ∧
      (withArgs [655351]).args[0].toNat = 655351 ∧ { State.reset with siValid := true }.siValid = true := by decide
theorem witness_FhvValidateReportsEveryFailingField :
    (let s := { withArgs [4096, 0, 8, 32] with siValid := true, si := ⟨44100, 2, 16, 4096, 4096, 0⟩ };
      s.args[0].toNat = 4096 ∧ s.args[1].toNat = 0 ∧ s.args[2].toNat = 8 ∧ s.args[3].toNat = 32 ∧
        s.fhv = .unvalidated ∧ 4096 ≤ s.si.maxBs.toNat) ∧
      { State.reset with fhv := .validated }.fhv ≠ .unvalidated := by decide
theorem witness_SubsetCheckClassifiesTheFields :
    let s := withArgs [4608, 48000, 8, 25, 12, 8]
    s.args[0].toNat = 4608 ∧ s.args[1].toNat = 48000 ∧ s.args[2].toNat = 8 ∧ s.args[3].toNat = 25 ∧
      s.args[4].toNat = 12 ∧ s.args[5].toNat = 8 := by decide

/-- A state in the middle of a stream meets the invariant, and steps. -/
def busy : State :=
  { withInput [1, 15, 3] e1Bits with
    si := ⟨44100, 2, 16, 4096, 4096, 0⟩, siValid := true, prOrder := 1, capOrder := 3, param := [(0, 1), (1, 15)],
    raw := [(0, 0), (1, 0)], res := Memory.cells 0 (e1Residuals.map (BitVec.ofInt 32)), cvalid := true, inPos := 38,
    fatal := true, pending := [cmdWrite 0x12] }

theorem busy_inv : busy.Inv where
  paramWf := by decide
  rawWf := by decide
  resWf := by decide
  orderCap := by decide
  siLegal := fun _ => by simp only [StreamInfo.legal]; decide
  siZero := by decide
  inPosLe := by decide

theorem witness_EveryStepKeepsTheInvariant : busy.Inv ∧ ∃ t, step busy = .next t := ⟨busy_inv, _, rfl⟩

/-- A step with reset released, and one with it asserted that is not its release. -/
theorem witness_FatalSticksAndCapacityNeverShrinks :
    (busy.inReset = false ∧ busy.fatal = true ∧ ∃ t, step busy = .next t) ∧
    ((∀ rest, { busy with inReset := true }.pending ≠ .releaseReset :: rest) ∧
      ∃ t, step { busy with inReset := true } = .next t) :=
  ⟨⟨rfl, rfl, _, rfl⟩, fun _ h => by simp [busy, cmdWrite] at h, _, rfl⟩

theorem witness_LoadedStreamInfoIsImmutable :
    (∃ t, exec .siLoad busy = .next t) ∧ Instr.siLoad ≠ .streamReset ∧ (Instr.siLoad = .siLoad → busy.siValid = true) :=
  ⟨⟨_, rfl⟩, by decide, fun _ => rfl⟩

/-- Each transition: reset, re-armed, validated or rejected, refused, and a command that leaves it. -/
theorem witness_FhvStateFollowsItsTransitions :
    (∃ t, step { busy with inReset := true, pending := [.releaseReset] } = .next t) ∧
    (∃ t, exec .frameBegin busy = .next t) ∧
    (∃ t, exec (.fhvValidate false) busy = .next t ∧ busy.fhv = .unvalidated) ∧
    (∃ t, exec (.fhvValidate false) { busy with fhv := .rejected } = .next t) ∧ (∃ t, exec .siLoad busy = .next t) :=
  ⟨⟨_, rfl⟩, ⟨_, rfl⟩, ⟨_, rfl, rfl⟩, ⟨_, rfl⟩, ⟨_, rfl⟩⟩

/-- VAL_BPS meets the hypotheses of every clause. -/
theorem witness_CommandsWriteOnlyTheirState :
    (∃ t, exec .valBps busy = .next t) ∧
      (∀ sub v, Instr.valBps ≠ .decodeSection sub v ∧ Instr.valBps ≠ .encodeSection sub v) ∧
      Instr.valBps ≠ .setPartition ∧ (∀ v, Instr.valBps ≠ .setHeader v) ∧ Instr.valBps ≠ .ensureCapacity ∧
      Instr.valBps ≠ .siLoad ∧ Instr.valBps ≠ .streamReset ∧ Instr.valBps ≠ .frameBegin ∧
      (∀ z, Instr.valBps ≠ .fhvValidate z) ∧ Instr.valBps ≠ .getPartition := by
  refine ⟨⟨_, rfl⟩, ?_⟩; simp

theorem witness_CvalidMarksTheLastCodecCommand :
    (∃ t, exec (.encodeSection false .rice) e1 = .next t) ∧
      ∃ t, exec (.decodeSection false .rice) (withInput [16, 2] e1Bits) = .next t := ⟨⟨_, rfl⟩, _, rfl⟩

theorem witness_CodecLeavesLegalContents :
    (∃ t, exec (.encodeSection false .rice) e1 = .next t ∧ t.code = .ok) ∧
      ∃ t, exec (.decodeSection false .rice) (withInput [16, 2] e1Bits) = .next t ∧ t.code = .ok :=
  ⟨⟨_, rfl, rfl⟩, _, rfl, by decide +kernel⟩

end Sys2Proof.Tests
end

section
/-! PROOFS, family 10_state, part 1: every way a command, and every way an event, can end. Each is an inductive relation
with one inversion lemma; the invariants below are case analyses of it and do not unfold a command again. -/

namespace Sys2Proof.Machine

/-! ### Orders (R43, R44) -/

/-- An order fits the four bits of CAP_ORDER, so the maximum of R170 is exact. -/
theorem toNat_max_order (c : BitVec 4) {o : Nat} (ho : o ≤ 15) :
    (BitVec.ofNat 4 (max c.toNat o)).toNat = max c.toNat o := by
  have := c.isLt
  rw [BitVec.toNat_ofNat, Nat.mod_eq_of_lt (by omega)]

/-- A header has at most 32768 partitions (R45). -/
theorem two_pow_order_le {o : Nat} (ho : o ≤ 15) : 2 ^ o ≤ 32768 := Nat.pow_le_pow_right (by omega) ho

theorem writeHeader_partitionCount {o : Nat} (ho : o ≤ 15) (v : Variant) (s : State) :
    (writeHeader o v s).partitionCount = 2 ^ o := by
  rw [State.partitionCount, writeHeader_prOrder, BitVec.toNat_ofNat, Nat.mod_eq_of_lt (by omega)]

/-! ### The codes of a section (R47) -/

/-- The codes of a section of order `o`: one for each partition, and every Rice parameter lies below the sentinel. -/
structure SectionCodes (v : Variant) (o : Nat) (parts : List Part) : Prop where
  order  : o ≤ 15
  length : parts.length = 2 ^ o
  rice   : ∀ p ∈ parts, ∀ k, p.1 = .rice k → k < escapeSentinel v

theorem bestUpTo_le (rs : List Word) (n : Nat) : bestUpTo rs n ≤ n := by
  induction n with
  | zero => exact Nat.le_refl 0
  | succ n ih => simp only [bestUpTo, cheaper]; split <;> omega

/-- The chosen Rice parameter lies below the sentinel (R200, R208). -/
theorem kbest_lt_escapeSentinel (rs : List Word) (v : Variant) : kbest rs v < escapeSentinel v := by
  have h := bestUpTo_le rs (maxParam v)
  have h0 : 0 < escapeSentinel v := by cases v <;> decide
  simp only [kbest, maxParam] at *; omega

theorem lt_escapeSentinel_of_chooseCode {v : Variant} {rs : List Word} {k : Nat} (h : chooseCode v rs = .rice k) :
    k < escapeSentinel v := by
  unfold chooseCode at h
  split at h
  · cases h
  · cases h; exact kbest_lt_escapeSentinel rs v

theorem encodeParts_sectionCodes (s : State) (v : Variant) (bs p : Nat) {o : Nat} (ho : o ≤ 15) :
    SectionCodes v o (s.encodeParts v bs p o) where
  order := ho
  length := length_encodeParts s v bs p o
  rice := by
    intro q hq k hk
    rw [encodeParts_eq, List.mem_map] at hq
    obtain ⟨i, -, rfl⟩ := hq
    exact lt_escapeSentinel_of_chooseCode hk

/-! ### How a command ends -/

/-- The codes with which a command leaves everything but the code, RESULT and ADVISORY (and FATAL with IndexOutOfRange,
R310): the validators, NOP, SUBSET_CHECK and GET_PARTITION always end so, the others when they are refused (R303). -/
def OutputsOnly (s : State) (c : StatusCode) : Instr → Prop
  | .ensureCapacity    => c = .outOfRange
  | .setHeader _       => c = .outOfRange
  | .setPartition      => c = .indexOutOfRange ∨ c = .parameterOutOfRange
  | .getPartition      => c = .indexOutOfRange ∨ c = .ok
  | .siLoad            => c = .illegalState ∨ c = .outOfRange
  | .fhvValidate _     => s.fhv ≠ .unvalidated ∧ c = .illegalState
  | .decodeSection _ _ => c = .illegalState
  | .encodeSection _ _ => False
  | .streamReset       => False
  | .frameBegin        => False
  | _                  => c = .ok ∨ c = .outOfRange

/-- `EndsWith s i c u`: the command `i`, run on `s`, can end with the code `c` after having made of `s` the state `u`, to
which its completion is still to be written. -/
inductive EndsWith (s : State) : Instr → StatusCode → State → Prop
  | outputsOnly {i c} (h : OutputsOnly s c i) : EndsWith s i c s
  | capacity (ho : s.arg 0 ≤ 15) : EndsWith s .ensureCapacity .ok (ensure (s.arg 0) s)
  | header {v} (ho : s.arg 0 ≤ 15) : EndsWith s (.setHeader v) .ok (writeHeader (s.arg 0) v s)
  | entry (hi : s.arg 0 < s.partitionCount) :
      EndsWith s .setPartition .ok (writePartition (s.arg 0) (s.arg 1) (s.arg 2) s)
  | encodeFailed {sub v c} (hc : c = .outOfRange ∨ c = .invalidPartitionGeometry) :
      EndsWith s (.encodeSection sub v) c (setCvalid false s)
  | encoded {sub v o parts} (bits : List Bool) (hp : SectionCodes v o parts) :
      EndsWith s (.encodeSection sub v) .ok
        (setCvalid true (appendBits bits (writeCodes v parts (writeHeader o v s))))
  | decodeFailed {sub v c} (q d : Nat) (hc : c = .outOfRange ∨ c = .invalidPartitionGeometry ∨ c = .truncatedStream)
      (hq : s.inPos ≤ s.cfg.inBits.length → q ≤ s.cfg.inBits.length) :
      EndsWith s (.decodeSection sub v) c (setCvalid false { s with inPos := q, draws := d })
  | decodeAborted {sub v o nr} (e : ReadFail) (ho : o ≤ 15) (hr : nr ≤ 65535) :
      EndsWith s (.decodeSection sub v) e.code
        (setCvalid false (drawContents (2 ^ o) nr (drawInPos s.inPos (writeHeader o v s))))
  | decoded {sub v o parts q} (hp : SectionCodes v o parts) (hr : (parts.map (fun p => p.2)).flatten.length ≤ 65535)
      (hq : q ≤ s.cfg.inBits.length) :
      EndsWith s (.decodeSection sub v) .ok
        (setCvalid true { writeResiduals parts (writeCodes v parts (writeHeader o v s)) with inPos := q })
  | siLoaded (hv : s.siValid = false) (hm : siMask s = 0) :
      EndsWith s .siLoad .ok { s with si := s.siOperands, siValid := true }
  | streamReset : EndsWith s .streamReset .ok { s with si := .zero, siValid := false, fhv := .unvalidated }
  | frameBegin : EndsWith s .frameBegin .ok { s with fhv := .unvalidated }
  | frameRejected {z} (hf : s.fhv = .unvalidated) : EndsWith s (.fhvValidate z) .outOfRange { s with fhv := .rejected }
  | frameValidated {z} (hf : s.fhv = .unvalidated) : EndsWith s (.fhvValidate z) .ok { s with fhv := .validated }

/-- The command `i`, run on `s`, ends in `t`: in one of the ways of `EndsWith`, with the completion `t` shows. -/
def Ends (i : Instr) (s t : State) : Prop :=
  ∃ u, EndsWith s i t.code u ∧ t = complete t.code t.result t.advisory u

theorem EndsWith.ends {s u : State} {i : Instr} {c : StatusCode} (h : EndsWith s i c u) (r : Word64) (a : Advisory) :
    Ends i s (complete c r a u) := ⟨u, h, rfl⟩

theorem OutputsOnly.ends {i : Instr} {s : State} {c : StatusCode} {r : Word64} {a : Advisory} (h : OutputsOnly s c i) :
    Ends i s (complete c r a s) := (EndsWith.outputsOnly h).ends r a

/-- A validator writes its outputs alone (R140). -/
theorem validate_ends {i : Instr} {s : State} (hi : ∀ c, c = .ok ∨ c = .outOfRange → OutputsOnly s c i)
    (fmt sub b : Bool) (a : Advisory) : Ends i s (validate fmt sub b a s) := by
  rw [validate_eq]
  refine OutputsOnly.ends (hi _ ?_)
  split <;> simp

theorem execEnsureCapacity_ends {s t : State} (h : execEnsureCapacity s = .next t) : Ends .ensureCapacity s t := by
  unfold execEnsureCapacity at h
  split at h <;> cases h
  · exact OutputsOnly.ends rfl
  · exact (EndsWith.capacity (by omega)).ends _ _

theorem execSetHeader_ends {v : Variant} {s t : State} (h : execSetHeader v s = .next t) : Ends (.setHeader v) s t := by
  unfold execSetHeader at h
  split at h <;> cases h
  · exact OutputsOnly.ends rfl
  · exact (EndsWith.header (by omega)).ends _ _

theorem execSetPartition_ends {s t : State} (h : execSetPartition s = .next t) : Ends .setPartition s t := by
  unfold execSetPartition at h
  split at h
  · cases h; exact OutputsOnly.ends (.inl rfl)
  · split at h <;> cases h
    · exact OutputsOnly.ends (.inr rfl)
    · exact (EndsWith.entry (by omega)).ends _ _

theorem execGetPartition_ends {s t : State} (h : execGetPartition s = .next t) : Ends .getPartition s t := by
  unfold execGetPartition at h
  split at h <;> cases h
  · exact OutputsOnly.ends (.inl rfl)
  · exact OutputsOnly.ends (.inr rfl)

theorem execEncodeSection_ends {sub : Bool} {v : Variant} {s t : State} (h : execEncodeSection sub v s = .next t) :
    Ends (.encodeSection sub v) s t := by
  obtain ⟨c, adv, hc, rfl⟩ | ⟨ho, -, -, rfl⟩ := execEncodeSection_cases h
  · exact (EndsWith.encodeFailed hc).ends _ _
  · exact (EndsWith.encoded _ (encodeParts_sectionCodes s v _ _ ho)).ends _ _

/-- DECODE inside the partitions, its reader within the input stream (R230, R236). -/
theorem decodeCore_ends {sub : Bool} {v : Variant} {bs p o : Nat} {rd : Reader} {s : State} (hb : bs ≤ 65535)
    (ho : o ≤ 15) (hg : geom bs p o = true) (hrd : rd.pos + rd.rest.length = s.cfg.inBits.length) :
    Ends (.decodeSection sub v) s (decodeCore v bs p o s.inPos rd s) := by
  obtain ⟨e, -, he⟩ | ⟨parts, rd', hread, he⟩ := decodeCore_cases v bs p o s.inPos rd s
  · rw [he]
    exact (EndsWith.decodeAborted e ho (by omega)).ends _ _
  · rw [he]
    obtain ⟨⟨hend, -⟩, hlen, hrice⟩ := readParts_ok hread
    obtain ⟨hd, hp⟩ := geom_iff.1 hg
    obtain ⟨hcount, hflat⟩ := lengths_of_parts (hlen.trans (partLens_eq bs p o)) hd hp
    exact (EndsWith.decoded ⟨ho, hcount, hrice⟩ (by omega) (by omega)).ends _ _

theorem execDecodeSection_ends {sub : Bool} {v : Variant} {s t : State} (h : execDecodeSection sub v s = .next t) :
    Ends (.decodeSection sub v) s t := by
  obtain ⟨-, rfl⟩ | ⟨-, -, rfl⟩ | ⟨-, -, -, rfl⟩ | ⟨o, rest, -, hb, ho, hlen, -, rfl⟩ := execDecodeSection_cases h
  · exact OutputsOnly.ends rfl
  · exact (EndsWith.decodeFailed s.inPos s.draws (.inl rfl) id).ends _ _
  · exact (EndsWith.decodeFailed _ _ (.inr (.inr rfl)) fun hq => (drawInPos_bounds s hq).2).ends _ _
  · obtain ⟨c, hc, he⟩ | ⟨hg, he⟩ := decodeOrdered_cases sub v o s.inPos ⟨s.inPos + 4, rest⟩ s
    · rw [he]
      refine (EndsWith.decodeFailed (s.inPos + 4) s.draws ?_ fun _ => by omega).ends _ _
      exact hc.imp_right .inl
    · rw [he]
      exact decodeCore_ends hb ho hg hlen

theorem execSiLoad_ends {s t : State} (h : execSiLoad s = .next t) : Ends .siLoad s t := by
  unfold execSiLoad at h
  split at h
  · cases h; exact OutputsOnly.ends (.inl rfl)
  · rename_i hv
    split at h <;> cases h
    · exact OutputsOnly.ends (.inr rfl)
    · rename_i hm
      exact (EndsWith.siLoaded (by simpa using hv) (not_not.1 hm)).ends _ _

theorem execFhvValidate_ends {z : Bool} {s t : State} (h : execFhvValidate z s = .next t) :
    Ends (.fhvValidate z) s t := by
  unfold execFhvValidate at h
  split at h
  · rename_i hf
    cases h; exact OutputsOnly.ends ⟨hf, rfl⟩
  · rename_i hf
    split at h <;> cases h
    · exact (EndsWith.frameRejected (not_not.1 hf)).ends _ _
    · exact (EndsWith.frameValidated (not_not.1 hf)).ends _ _

/-- Every command ends in one of the ways of `EndsWith`. -/
theorem exec_ends {i : Instr} {s t : State} (h : exec i s = .next t) : Ends i s t := by
  cases i with
  | nop => cases h; exact OutputsOnly.ends (.inl rfl)
  | valBlockSize sub => cases h; exact validate_ends (fun _ => id) ..
  | valChannels => cases h; exact validate_ends (fun _ => id) ..
  | valBps => cases h; exact validate_ends (fun _ => id) ..
  | valSampleRate z => cases h; exact validate_ends (fun _ => id) ..
  | valLpcOrder sub => cases h; exact validate_ends (fun _ => id) ..
  | valPartOrder sub => cases h; exact validate_ends (fun _ => id) ..
  | ensureCapacity => exact execEnsureCapacity_ends h
  | setHeader v => exact execSetHeader_ends h
  | setPartition => exact execSetPartition_ends h
  | getPartition => exact execGetPartition_ends h
  | encodeSection sub v => exact execEncodeSection_ends h
  | decodeSection sub v => exact execDecodeSection_ends h
  | siLoad => exact execSiLoad_ends h
  | streamReset => cases h; exact EndsWith.streamReset.ends _ _
  | frameBegin => cases h; exact EndsWith.frameBegin.ends _ _
  | fhvValidate z => exact execFhvValidate_ends h
  | subsetCheck => cases h; exact OutputsOnly.ends (.inl rfl)

/-! ### What an event does (R30, R33, R340) -/

/-- `EventEffect s e t`: the event `e`, taken in `s`, can give `t`. -/
inductive EventEffect (s : State) : HostEvent → State → Prop
  | replied (e : HostEvent) (r : BusReply) : EventEffect s e (setReply r s)
  | argWritten {a} (i : Fin 8) (v : Word) : EventEffect s (.access a) (setReply .written (writeArg i v s))
  | resWritten {a} (i : Fin 65536) (v : Word) : EventEffect s (.access a) (setReply .written (writeResEntry i v s))
  | commandRan {a i t} (h : exec i (setReply .written s) = .next t) : EventEffect s (.access a) t
  | wordRejected {a} : EventEffect s (.access a) (illegalCommand (setReply .written s))
  | resetAsserted : EventEffect s .assertReset (assertReset s)
  | resetReleased (h : s.inReset = true) : EventEffect s .releaseReset (platformReset s)

theorem runCommand_effect {a : BusAccess} {w : Word} {s t : State} (h : runCommand w (setReply .written s) = .next t) :
    EventEffect s (.access a) t := by
  unfold runCommand at h
  split at h
  · exact .commandRan h
  · cases h; exact .wordRejected

theorem writeReg_effect {a : BusAccess} {r : RegName} {v : Word} {s t : State} (h : writeReg r v s = .next t) :
    EventEffect s (.access a) t := by
  unfold writeReg at h
  split at h
  · exact runCommand_effect h
  · cases h; exact .argWritten _ _
  · cases h; exact .resWritten _ _
  · cases h; exact .replied _ _

theorem hostAccess_effect {a : BusAccess} {s t : State} (h : hostAccess a s = .next t) :
    EventEffect s (.access a) t := by
  cases a with
  | read offset width =>
    simp only [hostAccess] at h
    split at h <;> cases h <;> exact .replied _ _
  | write offset width v =>
    simp only [hostAccess] at h
    split at h
    · cases h; exact .replied _ _
    · exact writeReg_effect h

theorem hostEvent_effect {e : HostEvent} {s t : State} (h : hostEvent e s = .next t) : EventEffect s e t := by
  cases e with
  | access a =>
    simp only [hostEvent] at h
    split at h
    · cases h; exact .replied _ _
    · exact hostAccess_effect h
  | assertReset => cases h; exact .resetAsserted
  | releaseReset =>
    cases h
    cases hr : s.inReset with
    | false => rw [releaseReset_released hr]; exact .replied _ _
    | true => rw [releaseReset_asserted hr]; exact .resetReleased hr

/-- A step is idle, or the next event takes effect (R90, R321). -/
theorem step_effect {s t : State} (h : step s = .next t) :
    t = s ∨ ∃ e rest, s.pending = e :: rest ∧ EventEffect { s with pending := rest } e t := by
  unfold step at h
  split at h
  · cases h; exact .inl rfl
  · rename_i e rest hp
    exact .inr ⟨e, rest, hp, hostEvent_effect h⟩

end Sys2Proof.Machine
end

section
/-! PROOFS, family 10_state, part 2: the invariant of the block, kept by every operation on the state, so by every command
and every step. -/

namespace Sys2Proof.Machine

namespace State.Inv

variable {s : State}

/-! ### Operations that touch nothing the invariant speaks of -/

theorem complete (hs : s.Inv) (c : StatusCode) (r : Word64) (a : Advisory) : (complete c r a s).Inv := { hs with }

theorem setCvalid (hs : s.Inv) (b : Bool) : (setCvalid b s).Inv := { hs with }

theorem appendBits (hs : s.Inv) (bits : List Bool) : (appendBits bits s).Inv := { hs with }

theorem setFhv (hs : s.Inv) (f : FhvState) : { s with fhv := f }.Inv := { hs with }

theorem setReply (hs : s.Inv) (r : BusReply) : (setReply r s).Inv := { hs with }

theorem setPending (hs : s.Inv) (es : List HostEvent) : { s with pending := es }.Inv := { hs with }

theorem assertReset (hs : s.Inv) : (assertReset s).Inv := { hs with }

theorem writeArg (hs : s.Inv) (i : Fin 8) (v : Word) : (writeArg i v s).Inv := { hs with }

/-! ### The header (R44) -/

theorem ensure (hs : s.Inv) {o : Nat} (ho : o ≤ 15) : (ensure o s).Inv :=
  { hs with
    orderCap := by
      rw [ensure_prOrder, ensure_capOrder, toNat_max_order _ ho]
      exact le_max_of_le_left hs.orderCap }

theorem writeHeader (hs : s.Inv) (v : Variant) {o : Nat} (ho : o ≤ 15) : (writeHeader o v s).Inv :=
  { hs with
    orderCap := by
      rw [writeHeader_prOrder, writeHeader_capOrder, toNat_max_order _ ho, BitVec.toNat_ofNat]
      exact le_max_of_le_right (Nat.mod_le _ _) }

/-! ### The memories (R45, R48) -/

theorem writePartition (hs : s.Inv) {i : Nat} (hi : i < s.partitionCount) (prm raw : Nat) :
    (writePartition i prm raw s).Inv :=
  have hi : i < 32768 := hi.trans_le (two_pow_order_le (by have := s.prOrder.isLt; omega))
  { hs with
    paramWf := Memory.wf_write hs.paramWf hi
    rawWf   := Memory.wf_write hs.rawWf hi }

theorem writeCodes (hs : s.Inv) {v : Variant} {o : Nat} {parts : List Part} (hp : SectionCodes v o parts) :
    (writeCodes v parts s).Inv :=
  have hl : parts.length ≤ 32768 := hp.length ▸ two_pow_order_le hp.order
  { hs with
    paramWf := Memory.wf_writeRun hs.paramWf (by simpa using hl)
    rawWf   := Memory.wf_writeRun hs.rawWf (by simpa using hl) }

theorem writeResiduals (hs : s.Inv) {parts : List Part} (hr : (parts.map (fun p => p.2)).flatten.length ≤ 65536) :
    (writeResiduals parts s).Inv :=
  { hs with resWf := Memory.wf_writeRun hs.resWf (by simpa using hr) }

theorem writeResEntry (hs : s.Inv) (i : Fin 65536) (v : Word) : (writeResEntry i v s).Inv :=
  { hs with resWf := Memory.wf_write hs.resWf i.isLt }

theorem drawContents (hs : s.Inv) {np nr : Nat} (hp : np ≤ 32768) (hr : nr ≤ 65536) : (drawContents np nr s).Inv :=
  { hs with
    paramWf := Memory.wf_writeRun hs.paramWf (by simpa using hp)
    rawWf   := Memory.wf_writeRun hs.rawWf (by simpa using hp)
    resWf   := Memory.wf_writeRun hs.resWf (by simpa using hr) }

/-! ### The cursor (R80) -/

theorem setInPos (hs : s.Inv) {q : Nat} (hq : q ≤ s.cfg.inBits.length) (d : Nat) :
    { s with inPos := q, draws := d }.Inv := { hs with inPosLe := hq }

theorem drawInPos (hs : s.Inv) : (drawInPos s.inPos s).Inv := hs.setInPos (drawInPos_bounds s hs.inPosLe).2 _

end State.Inv

/-! ### The StreamInfo (R41, R253) -/

/-- The record SI_LOAD takes is legal: its mask is the list of the conditions (R251). -/
theorem siOperands_legal {s : State} (hm : siMask s = 0) : s.siOperands.legal := by
  simp only [siMask, failMask_eq_zero, List.forall_mem_cons, List.not_mem_nil, false_implies, implies_true, and_true,
    rateOk, chOk, bpsOk, bsFmt, Bool.and_false, Bool.or_false, decide_eq_true_eq] at hm
  exact hm

theorem State.Inv.loadSi {s : State} (hs : s.Inv) (hm : siMask s = 0) :
    { s with si := s.siOperands, siValid := true }.Inv :=
  { hs with
    siLegal := fun _ => siOperands_legal hm
    siZero  := fun h => nomatch h }

theorem State.Inv.clearSi {s : State} (hs : s.Inv) : { s with si := .zero, siValid := false }.Inv :=
  { hs with
    siLegal := fun h => nomatch h
    siZero  := fun _ => rfl }

/-! ### Reset -/

theorem reset_inv : State.reset.Inv where
  paramWf  := Memory.wf_nil _
  rawWf    := Memory.wf_nil _
  resWf    := Memory.wf_nil _
  orderCap := Nat.le_refl 0
  siLegal  := fun h => nomatch h
  siZero   := fun _ => rfl
  inPosLe  := Nat.zero_le _

/-- The platform's reset gives the state of reset but for the launch parameters and the model's own fields. -/
theorem platformReset_inv (s : State) : (platformReset s).Inv := { reset_inv with inPosLe := Nat.zero_le _ }

/-! ### Commands and steps -/

theorem EndsWith.inv {s u : State} {i : Instr} {c : StatusCode} (h : EndsWith s i c u) (hs : s.Inv) : u.Inv := by
  cases h with
  | outputsOnly h => exact hs
  | capacity ho => exact hs.ensure ho
  | header ho => exact hs.writeHeader _ ho
  | entry hi => exact hs.writePartition hi _ _
  | encodeFailed hc => exact hs.setCvalid _
  | encoded bits hp => exact (((hs.writeHeader _ hp.order).writeCodes hp).appendBits bits).setCvalid _
  | decodeFailed q d hc hq => exact (hs.setInPos (hq hs.inPosLe) d).setCvalid _
  | decodeAborted e ho hr =>
    exact ((hs.writeHeader _ ho).drawInPos.drawContents (two_pow_order_le ho) (hr.trans (by omega))).setCvalid _
  | @decoded sub v o parts q hp hr hq =>
    have hw := ((hs.writeHeader v hp.order).writeCodes hp).writeResiduals (hr.trans (by omega))
    exact (hw.setInPos hq _).setCvalid _
  | siLoaded hv hm => exact hs.loadSi hm
  | streamReset => exact hs.clearSi.setFhv _
  | frameBegin => exact hs.setFhv _
  | frameRejected hf => exact hs.setFhv _
  | frameValidated hf => exact hs.setFhv _

theorem exec_inv {i : Instr} {s t : State} (hs : s.Inv) (h : exec i s = .next t) : t.Inv := by
  obtain ⟨u, hu, ht⟩ := exec_ends h
  rw [ht]
  exact (hu.inv hs).complete _ _ _

theorem EventEffect.inv {s t : State} {e : HostEvent} (h : EventEffect s e t) (hs : s.Inv) : t.Inv := by
  cases h with
  | replied e r => exact hs.setReply r
  | argWritten i v => exact (hs.writeArg i v).setReply _
  | resWritten i v => exact (hs.writeResEntry i v).setReply _
  | commandRan h => exact exec_inv (hs.setReply _) h
  | wordRejected => exact (hs.setReply _).complete _ _ _
  | resetAsserted => exact hs.assertReset
  | resetReleased h => exact platformReset_inv s

/-- Settles O51: a step is idle or one event, and every operation an event is made of keeps the invariant. -/
theorem everyStepKeepsTheInvariant : Obligations.EveryStepKeepsTheInvariant := by
  intro s t hs h
  obtain rfl | ⟨e, rest, -, he⟩ := step_effect h
  · exact hs
  · exact he.inv (hs.setPending rest)

/-- Settles O50: the base case of O51. -/
theorem resetMeetsTheInvariant : Obligations.ResetMeetsTheInvariant := reset_inv

end Sys2Proof.Machine
end

section
/-! PROOFS, family 10_state, part 3: what each command writes and what it leaves, read off the ways it can end. -/

namespace Sys2Proof.Machine

/-! ### FATAL and CAP_ORDER (R34, R44, R310) -/

theorem EndsWith.fatal {s u : State} {i : Instr} {c : StatusCode} (h : EndsWith s i c u) : u.fatal = s.fatal := by
  cases h <;> simp

theorem exec_fatal {i : Instr} {s t : State} (h : exec i s = .next t) :
    t.fatal = (s.fatal || decide (t.code = .indexOutOfRange)) := by
  obtain ⟨u, hu, ht⟩ := exec_ends h
  rw [ht, complete_fatal, complete_code, hu.fatal]
  rfl

theorem EndsWith.capOrder_le {s u : State} {i : Instr} {c : StatusCode} (h : EndsWith s i c u) :
    s.capOrder.toNat ≤ u.capOrder.toNat := by
  have grows : ∀ {o}, o ≤ 15 → s.capOrder.toNat ≤ (BitVec.ofNat 4 (max s.capOrder.toNat o)).toNat := fun ho => by
    rw [toNat_max_order _ ho]; exact le_max_left _ _
  cases h with
  | capacity ho => exact grows ho
  | header ho => exact grows ho
  | encoded bits hp => exact grows hp.order
  | decodeAborted e ho hr => exact grows ho
  | decoded hp hr hq => exact grows hp.order
  | _ => exact Nat.le_refl _

theorem exec_capOrder_le {i : Instr} {s t : State} (h : exec i s = .next t) :
    s.capOrder.toNat ≤ t.capOrder.toNat := by
  obtain ⟨u, hu, ht⟩ := exec_ends h
  rw [ht]
  exact hu.capOrder_le

theorem EventEffect.fatal_capOrder {s t : State} {e : HostEvent} (h : EventEffect s e t)
    (he : s.inReset = true → e ≠ .releaseReset) :
    (s.fatal = true → t.fatal = true) ∧ s.capOrder.toNat ≤ t.capOrder.toNat := by
  cases h with
  | commandRan h =>
    refine ⟨fun hf => ?_, by simpa using exec_capOrder_le h⟩
    rw [exec_fatal h, setReply_fatal, hf, Bool.true_or]
  | wordRejected => exact ⟨fun hf => by simp [hf], Nat.le_refl _⟩
  | resetReleased h => exact absurd rfl (he h)
  | _ => exact ⟨id, Nat.le_refl _⟩

/-- Settles O52: a command's own two lemmas, and no event but the release of an asserted reset does less. -/
theorem fatalSticksAndCapacityNeverShrinks : Obligations.FatalSticksAndCapacityNeverShrinks := by
  refine ⟨fun s t hr h => ?_, fun s t i h => exec_fatal h⟩
  obtain rfl | ⟨e, rest, hp, he⟩ := step_effect h
  · exact ⟨id, Nat.le_refl _⟩
  · refine he.fatal_capOrder fun hin => ?_
    rintro rfl
    exact hr hin rest hp

/-! ### The StreamInfo (R41, R354) -/

theorem EndsWith.si_kept {s u : State} {i : Instr} {c : StatusCode} (h : EndsWith s i c u) (hi : i ≠ .streamReset)
    (hv : i = .siLoad → s.siValid = true) : u.si = s.si ∧ u.siValid = s.siValid := by
  cases h with
  | siLoaded hfree hm => exact absurd (hv rfl) (by simp [hfree])
  | streamReset => exact absurd rfl hi
  | _ => simp

/-- Settles O53: the two ways of `EndsWith` that write the record are excluded. -/
theorem loadedStreamInfoIsImmutable : Obligations.LoadedStreamInfoIsImmutable := by
  intro s t i h hi hv
  obtain ⟨u, hu, ht⟩ := exec_ends h
  rw [ht]
  exact hu.si_kept hi hv

/-! ### FHV_STATE (R50, R254) -/

theorem EndsWith.fhv_validate {s u : State} {z : Bool} {c : StatusCode} (h : EndsWith s (.fhvValidate z) c u) :
    (s.fhv = .unvalidated → u.fhv = if c = .ok then .validated else .rejected) ∧
    (s.fhv ≠ .unvalidated → u.fhv = s.fhv ∧ c = .illegalState) := by
  cases h with
  | outputsOnly h => exact ⟨fun hf => absurd hf h.1, fun _ => ⟨rfl, h.2⟩⟩
  | frameRejected hf => exact ⟨fun _ => rfl, fun hn => absurd hf hn⟩
  | frameValidated hf => exact ⟨fun _ => rfl, fun hn => absurd hf hn⟩

theorem EndsWith.fhv_rearmed {s u : State} {i : Instr} {c : StatusCode} (h : EndsWith s i c u)
    (hi : i = .streamReset ∨ i = .frameBegin) : u.fhv = .unvalidated := by
  obtain rfl | rfl := hi
  · cases h with
    | outputsOnly h => exact h.elim
    | streamReset => rfl
  · cases h with
    | outputsOnly h => exact h.elim
    | frameBegin => rfl

theorem EndsWith.fhv_kept {s u : State} {i : Instr} {c : StatusCode} (h : EndsWith s i c u) (hr : i ≠ .streamReset)
    (hb : i ≠ .frameBegin) (hz : ∀ z, i ≠ .fhvValidate z) : u.fhv = s.fhv := by
  cases h with
  | streamReset => exact absurd rfl hr
  | frameBegin => exact absurd rfl hb
  | frameRejected hf => exact absurd rfl (hz _)
  | frameValidated hf => exact absurd rfl (hz _)
  | _ => rfl

/-- The release of an asserted reset, as a step (R340). -/
theorem step_releaseReset {s : State} {rest : List HostEvent} (hp : s.pending = .releaseReset :: rest)
    (hr : s.inReset = true) : step s = .next (platformReset { s with pending := rest }) := by
  simp only [step, hp, hostEvent, releaseReset, hr, if_true]

/-- Settles O54: the release by the step itself, the commands by the ways they end. -/
theorem fhvStateFollowsItsTransitions : Obligations.FhvStateFollowsItsTransitions := by
  refine ⟨fun s t rest hp hr h => ?_, fun s t i h => ?_⟩
  · rw [step_releaseReset hp hr] at h
    cases h
    rfl
  · obtain ⟨u, hu, ht⟩ := exec_ends h
    have hf : t.fhv = u.fhv := by rw [ht]; rfl
    rw [hf]
    refine ⟨hu.fhv_rearmed, ?_, ?_, hu.fhv_kept⟩
    · rintro z rfl
      exact hu.fhv_validate.1
    · rintro z rfl
      exact hu.fhv_validate.2

/-! ### CVALID (R49) -/

theorem ReadFail.code_ne_ok (e : ReadFail) : e.code ≠ .ok := by cases e <;> decide

theorem ReadFail.code_ne_illegalState (e : ReadFail) : e.code ≠ .illegalState := by cases e <;> decide

theorem EndsWith.cvalid_encode {s u : State} {sub : Bool} {v : Variant} {c : StatusCode}
    (h : EndsWith s (.encodeSection sub v) c u) : u.cvalid = decide (c = .ok) := by
  cases h with
  | outputsOnly h => exact h.elim
  | encodeFailed hc => obtain rfl | rfl := hc <;> rfl
  | encoded bits hp => rfl

theorem EndsWith.cvalid_decode {s u : State} {sub : Bool} {v : Variant} {c : StatusCode}
    (h : EndsWith s (.decodeSection sub v) c u) :
    u.cvalid = if c = .illegalState then s.cvalid else decide (c = .ok) := by
  cases h with
  | outputsOnly h => exact (if_pos h).symm
  | decodeFailed q d hc hq => obtain rfl | rfl | rfl := hc <;> rfl
  | decodeAborted e ho hr => simp [e.code_ne_ok, e.code_ne_illegalState]
  | decoded hp hr hq => rfl

/-- Settles O56: each way ENCODE and DECODE can end shows its code beside the CVALID it leaves. -/
theorem cvalidMarksTheLastCodecCommand : Obligations.CvalidMarksTheLastCodecCommand := by
  refine fun s t sub v => ⟨fun h => ?_, fun h => ?_⟩
  · obtain ⟨u, hu, ht⟩ := exec_ends h
    rw [← hu.cvalid_encode, ht]
    rfl
  · obtain ⟨u, hu, ht⟩ := exec_ends h
    rw [← hu.cvalid_decode, ht]
    rfl

/-! ### The contents (R47) -/

theorem PartCode.param_escaped (v : Variant) (w : Nat) : ((PartCode.escaped w).param v).toNat = escapeSentinel v := by
  cases v <;> rfl

theorem PartCode.param_rice {v : Variant} {k : Nat} (hk : k < escapeSentinel v) :
    ((PartCode.rice k).param v).toNat = k := by
  have h5 : escapeSentinel v < 2 ^ 5 := by cases v <;> decide
  rw [PartCode.param, BitVec.toNat_ofNat, Nat.mod_eq_of_lt (hk.trans h5)]

theorem read_writeRun_zero {w : Nat} (d : Nat → BitVec w) (vs : List (BitVec w)) (m : Memory w) {i : Nat}
    (h : i < vs.length) : Memory.read d (Memory.writeRun 0 vs m) i = vs[i] := by
  simpa using Memory.read_writeRun_inside d 0 vs m h

/-- A header of order `o` over entries that hold a section's codes meets the contents invariant. -/
theorem contentsLegal_of_sectionCodes {t : State} {v : Variant} {o : Nat} {parts : List Part}
    (hp : SectionCodes v o parts) (hcount : t.partitionCount = 2 ^ o) (hv : t.prVariant = v)
    (hparam : ∃ m, t.param = Memory.writeRun 0 (parts.map (fun p => p.1.param v)) m)
    (hraw : ∃ m, t.raw = Memory.writeRun 0 (parts.map (fun p => p.1.raw)) m) : t.ContentsLegal := by
  obtain ⟨mp, hmp⟩ := hparam
  obtain ⟨mr, hmr⟩ := hraw
  intro i hi
  have hlen : i < parts.length := by rw [hp.length, ← hcount]; exact hi
  have eparam : t.readParam i = parts[i].1.param v := by
    rw [State.readParam, hmp, read_writeRun_zero _ _ _ (by simpa using hlen), List.getElem_map]
  have eraw : t.readRaw i = parts[i].1.raw := by
    rw [State.readRaw, hmr, read_writeRun_zero _ _ _ (by simpa using hlen), List.getElem_map]
  rw [eparam, eraw, hv]
  cases hcode : parts[i].1 with
  | rice k =>
    have hk := hp.rice _ (List.getElem_mem hlen) k hcode
    rw [PartCode.param_rice hk]
    exact .inl ⟨by omega, rfl⟩
  | escaped w => exact .inr (PartCode.param_escaped v w)

theorem EndsWith.contentsLegal_encode {s u : State} {sub : Bool} {v : Variant}
    (h : EndsWith s (.encodeSection sub v) .ok u) : u.ContentsLegal := by
  cases h with
  | outputsOnly h => exact h.elim
  | encodeFailed hc => simp at hc
  | encoded bits hp =>
    exact contentsLegal_of_sectionCodes hp (writeHeader_partitionCount hp.order v s) rfl ⟨_, rfl⟩ ⟨_, rfl⟩

/-- The code is left general, as `decodeAborted` gives it as that of a failed read. -/
theorem EndsWith.contentsLegal_decode {s u : State} {sub : Bool} {v : Variant} {c : StatusCode}
    (h : EndsWith s (.decodeSection sub v) c u) (hok : c = .ok) : u.ContentsLegal := by
  cases h with
  | outputsOnly h => exact absurd (hok.symm.trans h) (by decide)
  | decodeFailed q d hc hq => subst hok; simp at hc
  | decodeAborted e ho hr => exact absurd hok e.code_ne_ok
  | decoded hp hr hq =>
    exact contentsLegal_of_sectionCodes hp (writeHeader_partitionCount hp.order v s) rfl ⟨_, rfl⟩ ⟨_, rfl⟩

/-- Settles O57: with OK both commands leave a section's codes under its header. -/
theorem codecLeavesLegalContents : Obligations.CodecLeavesLegalContents := by
  intro s t sub v h hok
  obtain h | h := h
  all_goals
    obtain ⟨u, hu, ht⟩ := exec_ends h
    rw [hok] at hu
    rw [ht]
  · exact hu.contentsLegal_encode
  · exact hu.contentsLegal_decode rfl

/-! ### The writers of each piece of state (R31 to R50) -/

section Writers

variable {s u : State} {i : Instr} {c : StatusCode}

theorem EndsWith.inputs_kept (h : EndsWith s i c u) :
    u.args = s.args ∧ u.cfg = s.cfg ∧ u.inReset = s.inReset ∧ u.bootDraw = s.bootDraw ∧ u.reply = s.reply ∧
      u.pending = s.pending := by
  cases h <;> simp

theorem EndsWith.cursor_residuals_kept (h : EndsWith s i c u) (hd : ∀ sub v, i ≠ .decodeSection sub v) :
    u.inPos = s.inPos ∧ u.draws = s.draws ∧ u.res = s.res := by
  cases h with
  | decodeFailed q d hc hq => exact absurd rfl (hd _ _)
  | decodeAborted e ho hr => exact absurd rfl (hd _ _)
  | decoded hp hr hq => exact absurd rfl (hd _ _)
  | _ => simp

theorem EndsWith.outBits_kept (h : EndsWith s i c u) (he : ∀ sub v, i ≠ .encodeSection sub v) :
    u.outBits = s.outBits := by
  cases h with
  | encoded bits hp => exact absurd rfl (he _ _)
  | _ => simp

/-- What only the codec and the commands of the contents write. -/
theorem EndsWith.contents_kept (h : EndsWith s i c u)
    (hc : ∀ sub v, i ≠ .decodeSection sub v ∧ i ≠ .encodeSection sub v) :
    u.cvalid = s.cvalid ∧ (i ≠ .setPartition → u.param = s.param ∧ u.raw = s.raw) ∧
      ((∀ v, i ≠ .setHeader v) → u.prOrder = s.prOrder ∧ u.prVariant = s.prVariant ∧
        (i ≠ .ensureCapacity → u.capOrder = s.capOrder)) := by
  cases h with
  | encodeFailed h => exact absurd rfl (hc _ _).2
  | encoded bits hp => exact absurd rfl (hc _ _).2
  | decodeFailed q d h hq => exact absurd rfl (hc _ _).1
  | decodeAborted e ho hr => exact absurd rfl (hc _ _).1
  | decoded hp hr hq => exact absurd rfl (hc _ _).1
  | header ho => exact ⟨rfl, fun _ => ⟨rfl, rfl⟩, fun hv => absurd rfl (hv _)⟩
  | _ => simp

end Writers

/-- IndexOutOfRange is the code of SET_PARTITION and GET_PARTITION alone (R186, R310). -/
theorem EndsWith.code_ne_indexOutOfRange {s u : State} {i : Instr} {c : StatusCode} (h : EndsWith s i c u)
    (hs : i ≠ .setPartition) (hg : i ≠ .getPartition) : c ≠ .indexOutOfRange := by
  rintro rfl
  generalize hc : StatusCode.indexOutOfRange = c at h
  cases h with
  | outputsOnly h => subst hc; cases i <;> simp [OutputsOnly] at h hs hg
  | encodeFailed h => subst hc; simp at h
  | decodeFailed q d h hq => subst hc; simp at h
  | decodeAborted e ho hr => cases e <;> cases hc
  | _ => cases hc

theorem readParam_congr {s t : State} (hb : t.bootDraw = s.bootDraw) (hp : t.param = s.param) (j : Nat) :
    t.readParam j = s.readParam j := by rw [State.readParam, State.readParam, hb, hp]

theorem readRaw_congr {s t : State} (hb : t.bootDraw = s.bootDraw) (hp : t.raw = s.raw) (j : Nat) :
    t.readRaw j = s.readRaw j := by rw [State.readRaw, State.readRaw, hb, hp]

theorem readRes_congr {s t : State} (hb : t.bootDraw = s.bootDraw) (hp : t.res = s.res) (j : Nat) :
    t.readRes j = s.readRes j := by rw [State.readRes, State.readRes, hb, hp]

/-- Settles O55: a clause for each of the lemmas above; FATAL is written with IndexOutOfRange alone. -/
theorem commandsWriteOnlyTheirState : Obligations.CommandsWriteOnlyTheirState := by
  intro s t i h
  have hfatal := exec_fatal h
  obtain ⟨u, hu, ht⟩ := exec_ends h
  obtain ⟨hargs, hcfg, hinReset, hboot, hreply, hpending⟩ := hu.inputs_kept
  -- Which code and outputs the completion wrote matters to FATAL alone, and `hfatal` says it.
  generalize t.code = c, t.result = r, t.advisory = a at *
  subst ht
  refine ⟨⟨hargs, hcfg, hinReset, hboot, hreply, hpending⟩, fun hd => ?_, fun he => ?_, fun hc => ?_, fun hl hr => ?_,
    fun hr hb hz => ?_, fun hs hg => ?_⟩
  · obtain ⟨hpos, hdraws, hres⟩ := hu.cursor_residuals_kept hd
    exact ⟨hpos, hdraws, readRes_congr hboot hres⟩
  · exact hu.outBits_kept he
  · obtain ⟨hcv, hentries, hheader⟩ := hu.contents_kept hc
    refine ⟨hcv, fun hs j => ?_, hheader⟩
    obtain ⟨hparam, hraw⟩ := hentries hs
    exact ⟨readParam_congr hboot hparam j, readRaw_congr hboot hraw j⟩
  · exact hu.si_kept hr fun h => absurd h hl
  · exact hu.fhv_kept hr hb hz
  · rw [hfatal, decide_eq_false (hu.code_ne_indexOutOfRange hs hg), Bool.or_false]

end Sys2Proof.Machine
end

section
/-! PROOFS, family 10_state, part 4: reset, the command written to CMD, and what the host reads and writes through the
register window. -/

namespace Sys2Proof.Machine

/-! ### Reset (R54, R340) -/

/-- Settles O1: State.reset is written out, but for ARG, a replicated 0. -/
theorem resetStateHoldsTheSpecValues : Obligations.ResetStateHoldsTheSpecValues := by
  refine ⟨rfl, rfl, rfl, rfl, rfl, rfl, rfl, rfl, rfl, rfl, rfl, rfl, rfl, rfl, fun i => ?_⟩
  exact Vector.getElem_replicate i.isLt

/-- Settles O2: every entry of the empty memories is the free value of the draw the reset takes. -/
theorem platformResetRestoresTheResetState : Obligations.PlatformResetRestoresTheResetState := by
  intro s rest hp hr
  refine ⟨_, step_releaseReset hp hr, rfl, rfl, rfl, rfl, rfl, rfl, rfl, rfl, rfl, rfl, rfl, rfl, rfl, rfl, rfl,
    fun i => Vector.getElem_replicate i.isLt, fun i => rfl, fun i => rfl, fun i => rfl, rfl, rfl, rfl⟩

/-! ### The register window (R32, R70, R73) -/

/-- The bus finds each register at its offset. -/
theorem busTarget_offset (r : RegName) : busTarget (BitVec.ofNat 20 r.offset) .w32 = .ok r := by
  cases r with
  | arg i => revert i; decide
  | res i =>
    have hoff : (BitVec.ofNat 20 (RegName.res i).offset).toNat = 0x40000 + 4 * i.val := by
      rw [BitVec.toNat_ofNat, RegName.offset]; omega
    have hreg : regAt (0x40000 + 4 * i.val) = some (.res i) := by
      have hin : 0x40000 ≤ 0x40000 + 4 * i.val ∧ 0x40000 + 4 * i.val < 0x80000 := by omega
      rw [regAt, if_pos hin]
      congr 2
      ext
      simp
    have halign : (0x40000 + 4 * i.val) % 4 = 0 := by omega
    simp [busTarget, hoff, halign, hreg]
  | _ => rfl

/-- The events to come are no part of what a register reads as. -/
theorem readReg_pending (s : State) (rest : List HostEvent) (r : RegName) :
    readReg { s with pending := rest } r = readReg s r := by cases r <;> rfl

/-- An access the block answers, as a step (R30, R340). -/
theorem step_access {s : State} {a : BusAccess} {rest : List HostEvent} (h : s.NextAccess a rest) :
    step s = hostAccess a { s with pending := rest } := by
  obtain ⟨hp, hr⟩ := h
  rw [step, hp]
  exact if_neg (by simp [hr])

/-- The host reads at a register's offset what the register reads as (R75). -/
theorem readsAs_offset {s : State} {r : RegName} {v : Word} (h : readReg s r = .ok v) : s.ReadsAs r.offset v := by
  intro rest hnext
  rw [step_access hnext, hostAccess, busRead, busTarget_offset]
  simp only [readReg_pending, h, setReply]

/-- A 32-bit host write at a register's offset is a write of the register. -/
theorem step_write_offset {s : State} {r : RegName} {v : Word} {rest : List HostEvent}
    (h : s.NextAccess (.write (BitVec.ofNat 20 r.offset) .w32 v) rest) :
    step s = writeReg r v { s with pending := rest } := by
  rw [step_access h, hostAccess, busTarget_offset]

/-- Settles O3: offset 0 is CMD's, and CMD runs the command of a legal word. -/
theorem stepRunsTheCommandWritten : Obligations.StepRunsTheCommandWritten := by
  intro s w i rest h hd
  rw [step_write_offset (r := .cmd) h, writeReg, runCommand, hd]
  rfl

/-- Settles O9: the offset is ARG[i]'s, and a vector's `set` leaves the other entries. -/
theorem argWriteSetsOneRegister : Obligations.ArgWriteSetsOneRegister := by
  intro s i v rest h
  refine ⟨_, step_write_offset (r := .arg i) h, Vector.getElem_set_self i.isLt, fun j hj => ?_, rfl⟩
  exact Vector.getElem_set_ne i.isLt j.isLt fun e => hj (Fin.ext e.symm)

/-! ### The values of the registers (R34 to R41) -/

theorem toNat_append_add {m n : Nat} (x : BitVec m) (y : BitVec n) : (x ++ y).toNat = x.toNat * 2 ^ n + y.toNat := by
  rw [BitVec.toNat_append, ← Nat.shiftLeft_add_eq_or_of_lt y.isLt, Nat.shiftLeft_eq]

theorem lowHalf_eq (v : Word64) : lowHalf v = BitVec.ofNat 32 v.toNat := by
  apply BitVec.eq_of_toNat_eq
  simp [lowHalf]

theorem highHalf_eq (v : Word64) : highHalf v = BitVec.ofNat 32 (v.toNat / 2 ^ 32) := by
  apply BitVec.eq_of_toNat_eq
  simp [highHalf, Nat.shiftRight_eq_div_pow]

/-- The low register of a count shows its bits [31:0]. -/
theorem lowHalf_ofNat (n : Nat) : lowHalf (BitVec.ofNat 64 n) = BitVec.ofNat 32 n := by
  apply BitVec.eq_of_toNat_eq
  rw [lowHalf_eq, BitVec.toNat_ofNat, BitVec.toNat_ofNat, BitVec.toNat_ofNat]
  omega

/-- The high register of a count shows its bits [63:32]. -/
theorem highHalf_ofNat (n : Nat) : highHalf (BitVec.ofNat 64 n) = BitVec.ofNat 32 (n / 2 ^ 32) := by
  apply BitVec.eq_of_toNat_eq
  rw [highHalf_eq, BitVec.toNat_ofNat, BitVec.toNat_ofNat, BitVec.toNat_ofNat]
  omega

theorem statusReg_eq (s : State) :
    s.statusReg = BitVec.ofNat 32 (s.code.bits.toNat + if s.fatal then 2 ^ 8 else 0) := by
  apply BitVec.eq_of_toNat_eq
  have := s.code.bits.isLt
  simp only [State.statusReg, toNat_append_add, BitVec.toNat_ofNat, BitVec.toNat_ofBool]
  cases s.fatal <;> simp <;> omega

theorem advisoryReg_eq (s : State) : s.advisoryReg = BitVec.ofNat 32
    ((if s.advisory.bpsGt24 then 1 else 0) + if s.advisory.partOrderGt8 then 2 else 0) := by
  rw [State.advisoryReg]
  cases s.advisory.bpsGt24 <;> cases s.advisory.partOrderGt8 <;> rfl

theorem toNat_variantBit (v : Variant) : (variantBit v).toNat * 2 ^ 4 = if v = .rice2 then 2 ^ 4 else 0 := by
  cases v <;> rfl

theorem toNat_fhvBits (f : FhvState) :
    f.bits.toNat * 2 ^ 13 = if f = .validated then 2 ^ 13 else if f = .rejected then 2 ^ 14 else 0 := by
  cases f <;> rfl

theorem toNat_bool_mul (b : Bool) (n : Nat) : b.toNat * n = if b then n else 0 := by cases b <;> simp

theorem infoReg_eq (s : State) : s.infoReg = BitVec.ofNat 32
    (s.prOrder.toNat + (if s.prVariant = .rice2 then 2 ^ 4 else 0) + s.capOrder.toNat * 2 ^ 8 +
      (if s.siValid then 2 ^ 12 else 0) +
      (if s.fhv = .validated then 2 ^ 13 else if s.fhv = .rejected then 2 ^ 14 else 0) +
      if s.cvalid then 2 ^ 15 else 0) := by
  rw [← toNat_variantBit, ← toNat_fhvBits, ← toNat_bool_mul, ← toNat_bool_mul]
  apply BitVec.eq_of_toNat_eq
  have h := s.infoReg.isLt
  simp only [State.infoReg, toNat_append_add, BitVec.toNat_ofNat, BitVec.toNat_ofBool] at *
  omega

/-- Settles O6: the window leads each offset to its register, whose value is the sum of its fields. -/
theorem registerReadsReturnTheirFields : Obligations.RegisterReadsReturnTheirFields := by
  intro s
  have reads {r : RegName} {v w : Word} (h : readReg s r = .ok v) (e : v = w) : s.ReadsAs r.offset w :=
    e ▸ readsAs_offset h
  exact ⟨reads (r := .status) rfl (statusReg_eq s), reads (r := .result) rfl (lowHalf_eq _),
    reads (r := .resultHi) rfl (highHalf_eq _), reads (r := .advisory) rfl (advisoryReg_eq s),
    reads (r := .info) rfl (infoReg_eq s), reads (r := .inPosLo) rfl (lowHalf_ofNat _),
    reads (r := .inPosHi) rfl (highHalf_ofNat _), reads (r := .outLenLo) rfl (lowHalf_ofNat _),
    reads (r := .outLenHi) rfl (highHalf_ofNat _), fun i => reads (r := .arg i) rfl rfl,
    reads (r := .siRate) rfl rfl, reads (r := .siChannels) rfl rfl, reads (r := .siBps) rfl rfl,
    reads (r := .siMinBs) rfl rfl, reads (r := .siMaxBs) rfl rfl, reads (r := .siTotalLo) rfl (lowHalf_eq _),
    reads (r := .siTotalHi) rfl (highHalf_eq _)⟩

end Sys2Proof.Machine
end

section
/-! PROOFS, family 20_memory, part 1: the residual window and the accesses the bus answers with an error. -/

namespace Sys2Proof.Machine

/-! ### The residual window (R74) -/

/-- Settles O8: the offset is RES[i]'s, and a write of one entry leaves the others. -/
theorem residualWindowReadsAndWritesOneEntry : Obligations.ResidualWindowReadsAndWritesOneEntry := by
  intro s i hi
  refine ⟨readsAs_offset (r := .res ⟨i, hi⟩) rfl, fun v rest h => ?_⟩
  refine ⟨_, step_write_offset (r := .res ⟨i, hi⟩) h, ?_, fun j hj => ?_, rfl⟩
  · exact Memory.read_write_same _ i v s.res
  · exact Memory.read_write_other _ v s.res hj

/-! ### Bus errors (R73) -/

theorem busRead_pending (s : State) (rest : List HostEvent) (a : BitVec 20) (w : AccessWidth) :
    busRead { s with pending := rest } a w = busRead s a w := by
  unfold busRead
  split
  · rfl
  · exact readReg_pending s rest _

theorem busErrors_read {s : State} {a : BitVec 20} {w : AccessWidth} {f : Fault} (h : busRead s a w = .error f) :
    s.BusErrors (.read a w) := by
  intro rest hnext
  refine ⟨f, ?_⟩
  rw [step_access hnext, hostAccess, busRead_pending, h]
  rfl

theorem busErrors_write_of_target {a : BitVec 20} {w : AccessWidth} {f : Fault} (h : busTarget a w = .error f)
    (s : State) (v : Word) : s.BusErrors (.write a w v) := by
  intro rest hnext
  refine ⟨f, ?_⟩
  rw [step_access hnext, hostAccess, h]
  rfl

/-- Where no register is selected, neither a read nor a write is served. -/
theorem busErrors_of_target {a : BitVec 20} {w : AccessWidth} {f : Fault} (h : busTarget a w = .error f) (s : State)
    (v : Word) : s.BusErrors (.read a w) ∧ s.BusErrors (.write a w v) :=
  ⟨busErrors_read (by rw [busRead, h]), busErrors_write_of_target h s v⟩

/-- The registers of R32 a host write cannot change. -/
def RegName.ReadOnly : RegName → Prop
  | .cmd   => False
  | .arg _ => False
  | .res _ => False
  | _      => True

theorem writeReg_readOnly {r : RegName} (h : r.ReadOnly) (v : Word) (s : State) :
    writeReg r v s = .next (setReply (.error .writeToReadOnly) s) := by
  cases r with
  | cmd => exact h.elim
  | arg i => exact h.elim
  | res i => exact h.elim
  | _ => rfl

theorem busErrors_write_readOnly {a : BitVec 20} {w : AccessWidth} {r : RegName} (h : busTarget a w = .ok r)
    (hr : r.ReadOnly) (s : State) (v : Word) : s.BusErrors (.write a w v) := by
  intro rest hnext
  refine ⟨.writeToReadOnly, ?_⟩
  rw [step_access hnext, hostAccess, h]
  exact writeReg_readOnly hr v _

/-- The registers beside ARG and RES stand at the words 0 to 9 and 24 to 30, and all but the first, CMD, are read only
(R32). -/
theorem fixedRegs_layout : ∀ c ∈ fixedRegs, (c.1 ≤ 9 ∨ 24 ≤ c.1 ∧ c.1 ≤ 30) ∧ (c.1 ≠ 0 → c.2.ReadOnly) := by
  simp [fixedRegs, RegName.ReadOnly]

/-- Outside the ARG and RES windows an offset's register is that of its word in the list of the others. -/
theorem regAt_fixed {n : Nat} (harg : n < 0x040 ∨ 0x060 ≤ n) (hres : n < 0x40000 ∨ 0x80000 ≤ n) :
    regAt n = fixedRegs.lookup (n / 4) := by
  rw [regAt, if_neg (by omega), if_neg (by omega)]

theorem regAt_reserved {n : Nat}
    (h : (0x028 ≤ n ∧ n ≤ 0x03F) ∨ (0x07C ≤ n ∧ n ≤ 0x3FFFF) ∨ 0x80000 ≤ n) : regAt n = none := by
  rw [regAt_fixed (by omega) (by omega), List.lookup_eq_none_iff]
  intro c hc
  have := (fixedRegs_layout c hc).1
  simp only [bne_iff_ne]
  omega

theorem readOnly_of_regAt {n : Nat} {r : RegName} (h : (0x004 ≤ n ∧ n ≤ 0x027) ∨ (0x060 ≤ n ∧ n ≤ 0x07B))
    (hr : regAt n = some r) : r.ReadOnly := by
  rw [regAt_fixed (by omega) (by omega), List.lookup_eq_some_iff] at hr
  obtain ⟨before, after, hl, -⟩ := hr
  exact (fixedRegs_layout (n / 4, r) (by simp [hl])).2 (by omega)

/-- Only a 32-bit access at an aligned offset selects a register, and it is the one at that offset (R71). -/
theorem regAt_of_busTarget {a : BitVec 20} {w : AccessWidth} {r : RegName} (h : busTarget a w = .ok r) :
    w = .w32 ∧ a.toNat % 4 = 0 ∧ regAt a.toNat = some r := by
  unfold busTarget at h
  split at h
  · cases h
  · rename_i hw
    split at h
    · cases h
    · rename_i ha
      split at h
      · cases h
      · rename_i hreg
        cases h
        exact ⟨not_not.1 hw, not_not.1 ha, hreg⟩

/-- Settles O10: the selection fails, or it finds CMD for the read or a read-only register for the write. -/
theorem busErrorsChangeNothing : Obligations.BusErrorsChangeNothing := by
  intro s a w v
  refine ⟨fun hbad => ?_, fun h0 => ?_, fun hro => ?_⟩
  · cases ht : busTarget a w with
    | error f => exact busErrors_of_target ht s v
    | ok r =>
      obtain ⟨hw, ha, hreg⟩ := regAt_of_busTarget ht
      obtain hw' | ha' | hreserved := hbad
      · exact absurd hw hw'
      · exact absurd ha ha'
      · rw [regAt_reserved hreserved] at hreg
        cases hreg
  · subst h0
    cases ht : busTarget 0 w with
    | error f => exact (busErrors_of_target ht s v).1
    | ok r =>
      obtain ⟨rfl, -, -⟩ := regAt_of_busTarget ht
      exact busErrors_read (f := .readOfCmd) rfl
  · cases ht : busTarget a w with
    | error f => exact (busErrors_of_target ht s v).2
    | ok r =>
      obtain ⟨-, -, hreg⟩ := regAt_of_busTarget ht
      exact busErrors_write_readOnly ht (readOnly_of_regAt hro hreg) s v

end Sys2Proof.Machine
end

section
/-! PROOFS, family 20_memory, part 2: the bits a read takes, and the streams on which DECODE fails. -/

namespace Sys2Proof.Machine

/-! ### The value of the next bits (R80, R81) -/

/-- The sum of R80: the value of the first `n` bits, the first one most significant. -/
def msbFirst (n : Nat) (bs : List Bool) : Nat :=
  ((List.range n).map (fun j => (bs.getD j false).toNat * 2 ^ (n - 1 - j))).sum

theorem msbFirst_cons (n : Nat) (b : Bool) (bs : List Bool) :
    msbFirst (n + 1) (b :: bs) = b.toNat * 2 ^ n + msbFirst n bs := by
  rw [msbFirst, List.range_succ_eq_map]
  simp [msbFirst, Function.comp_def, Nat.sub_sub, Nat.add_comm 1]

/-- Reading where enough bits are left: their value, above the bits already read, and what stands behind them. -/
theorem takeBits_eq_msbFirst {n : Nat} {bs : List Bool} (h : n ≤ bs.length) (acc : Nat) :
    takeBits n acc bs = .ok (acc * 2 ^ n + msbFirst n bs, bs.drop n) := by
  induction n generalizing acc bs with
  | zero => simp [takeBits, msbFirst]
  | succ n ih =>
    cases bs with
    | nil => simp at h
    | cons b bs =>
      rw [takeBits, ih (by simpa using h), msbFirst_cons, List.drop_succ_cons]
      congr 2
      ring

/-- Settles O33: `takeBits` adds up the sum bit by bit, and fails exactly when too few bits are left. -/
theorem readBitsTakesTheNextBitsMsbFirst : Obligations.ReadBitsTakesTheNextBitsMsbFirst := by
  refine fun n rd => ⟨fun h => ?_, fun h => readBits_error.2 ⟨rfl, h⟩⟩
  rw [readBits, takeBits_eq_msbFirst h, Nat.zero_mul, Nat.zero_add]
  rfl

/-! ### DECODE before its partitions (R235, R236) -/

section DecodeChecks

variable {s : State} {sub : Bool} {v : Variant} {o : Nat} {rest : List Bool}

theorem exec_decode_blockSize (hf : s.fhv ≠ .rejected) (hb : s.arg 0 > 65535) :
    exec (.decodeSection sub v) s = .next (codecFail .outOfRange .clear s) := by
  rw [exec, execDecodeSection, if_neg hf, if_pos hb]

theorem exec_decode_noOrder (hf : s.fhv ≠ .rejected) (hb : s.arg 0 ≤ 65535)
    (hl : (s.cfg.inBits.drop s.inPos).length < 4) :
    exec (.decodeSection sub v) s = .next (codecFail .truncatedStream .clear (drawInPos s.inPos s)) := by
  have hread : readBits 4 s.reader = .error .eof := readBits_error.2 ⟨rfl, hl⟩
  rw [exec, execDecodeSection, if_neg hf, if_neg (by omega), hread]
  rfl

theorem exec_decode_order (hf : s.fhv ≠ .rejected) (hb : s.arg 0 ≤ 65535) (ho : o ≤ 15)
    (hbits : s.cfg.inBits.drop s.inPos = bitsOf 4 o ++ rest) :
    exec (.decodeSection sub v) s = .next (decodeOrdered sub v o s.inPos ⟨s.inPos + 4, rest⟩ s) := by
  have hread : readBits 4 s.reader = .ok (o, ⟨s.inPos + 4, rest⟩) := by
    rw [State.reader, hbits, readBits_bitsOf (by omega)]
  rw [exec, execDecodeSection, if_neg hf, if_neg (by omega), hread]

variable {start : Nat} {rd : Reader}

/-- A strict-Subset order fails before the geometry does. -/
theorem decodeOrdered_fails (h : (sub = true ∧ o > 8) ∨ geom (s.arg 0) (s.arg 1) o ≠ true) :
    decodeOrdered sub v o start rd s =
      codecFail (if sub = true ∧ o > 8 then .outOfRange else .invalidPartitionGeometry) (orderAdvisory o)
        { s with inPos := rd.pos } := by
  by_cases hs : sub = true ∧ o > 8
  · simp [decodeOrdered, hs]
  · have hg : geom (s.arg 0) (s.arg 1) o = false := by simpa [hs] using h
    have hs' : ¬ (sub && decide (o > 8)) = true := by simpa using hs
    rw [decodeOrdered, if_neg hs', hg, if_neg hs]
    rfl

theorem decodeOrdered_passes (hs : sub = true → o ≤ 8) (hg : geom (s.arg 0) (s.arg 1) o = true) :
    decodeOrdered sub v o start rd s = decodeCore v (s.arg 0) (s.arg 1) o start rd s := by
  have hs' : ¬ (sub && decide (o > 8)) = true := by simpa using hs
  rw [decodeOrdered, if_neg hs', hg]
  rfl

end DecodeChecks

/-- The order field holds no order above 15 (R36, R230). -/
theorem orderAdvisory_eq {o : Nat} (ho : o ≤ 15) : orderAdvisory o = ⟨false, decide (9 ≤ o)⟩ := by
  simp [orderAdvisory, ho]

/-- A failing codec command as an update of the state: FATAL is IndexOutOfRange's alone (R310). -/
theorem codecFail_eq_update {c : StatusCode} (hc : c ≠ .indexOutOfRange) (adv : Advisory) (s : State) :
    codecFail c adv s = { s with code := c, result := 0, advisory := adv, cvalid := false } := by
  simp [codecFail_eq, complete, setCvalid, hc]

/-- Settles O41: one equation for each way DECODE ends before the partitions. -/
theorem decodeFailuresBeforeThePartitions : Obligations.DecodeFailuresBeforeThePartitions := by
  rintro s sub v _ _ rfl rfl hf
  refine ⟨fun hb => ?_, fun hb hl => ?_, fun hb o rest ho hbits hfail => ?_⟩
  · rw [exec_decode_blockSize hf hb, codecFail_eq_update (by decide)]
    rfl
  · refine ⟨_, exec_decode_noOrder hf hb hl, Nat.le_add_right _ _, fun hpos => (drawInPos_bounds s hpos).2, ?_⟩
    rw [codecFail_eq_update (by decide)]
    rfl
  · have hg : (sub = true ∧ o > 8) ∨ geom (s.arg 0) (s.arg 1) o ≠ true := by
      refine hfail.imp_right fun hgeom hok => ?_
      obtain ⟨hd, hp⟩ := geom_iff.1 hok
      exact hgeom.elim (fun h => h hd) (fun h => absurd hp (Nat.not_le.2 h))
    rw [exec_decode_order hf hb ho hbits, decodeOrdered_fails hg, orderAdvisory_eq ho,
      codecFail_eq_update (by split <;> decide)]

/-! ### A stream that ends inside a section (R80, R301) -/

/-- A reader that takes a whole input finds the end of the stream in every shorter one it begins with: a value or an overflow
it would give there, it would give on the whole. -/
theorem IgnoresTail.eof_of_cut {α : Type} {f : Reader → Except ReadFail (α × Reader)} (hf : IgnoresTail f)
    {pos q : Nat} {pre post : List Bool} {a : α} (hwhole : f ⟨pos, pre ++ post⟩ = .ok (a, ⟨q, []⟩))
    (hpost : post ≠ []) : f ⟨pos, pre⟩ = .error .eof := by
  obtain ⟨hok, hover⟩ := hf pos pre post
  cases hpre : f ⟨pos, pre⟩ with
  | ok r =>
    have hrest := (hok r.1 r.2 hpre).symm.trans hwhole
    simp [hpost] at hrest
  | error e =>
    cases e with
    | eof => rfl
    | overflow =>
      have := (hover hpre).symm.trans hwhole
      cases this

/-- Legal partitions cut short are not read (R230). -/
theorem readParts_eof_of_cut {v : Variant} {parts : List Part} (h : ∀ q ∈ parts, LegalPart v q)
    {pre post : List Bool} (hbits : (parts.map (fun q => partBits v q.1 q.2)).flatten = pre ++ post) (hpost : post ≠ [])
    (pos : Nat) : readParts v (parts.map (fun q => q.2.length)) ⟨pos, pre⟩ = .error .eof := by
  have hwhole := readParts_partBits parts h pos []
  rw [List.append_nil, hbits] at hwhole
  exact (readParts_ignoresTail v _).eof_of_cut hwhole hpost

theorem decodeCore_error {v : Variant} {bs p o start : Nat} {rd : Reader} {e : ReadFail}
    (h : readParts v (partitionLengths bs p o) rd = .error e) (s : State) :
    decodeCore v bs p o start rd s = codecFail e.code (orderAdvisory o)
      (drawContents (2 ^ o) (bs - p) (drawInPos start (writeHeader o v s))) := by
  rw [decodeCore, partLens_eq, h]

/-- Settles O43: the stream ends in the order field, or behind it and so inside the partitions. -/
theorem truncatedSectionFailsDecode : Obligations.TruncatedSectionFailsDecode := by
  rintro s sub v _ _ o parts pre post rfl rfl hf hb ho hs hd hp hlegal hlens hbits hpost hin
  by_cases hl : pre.length < 4
  · exact ⟨_, exec_decode_noOrder hf hb (hin ▸ hl), rfl, rfl, rfl⟩
  · obtain ⟨rest, rfl⟩ : bitsOf 4 o <+: pre :=
      List.prefix_of_prefix_length_le ⟨_, hbits⟩ ⟨post, rfl⟩ (by simpa using hl)
    rw [sectionBits, List.append_assoc, List.append_cancel_left_eq] at hbits
    have hread := readParts_eof_of_cut hlegal hbits hpost (s.inPos + 4)
    rw [hlens] at hread
    have hexec := exec_decode_order (sub := sub) (v := v) hf hb ho hin
    rw [decodeOrdered_passes hs (geom_iff.2 ⟨hd, hp⟩)] at hexec
    exact ⟨_, hexec.trans (congrArg _ (decodeCore_error hread s)), rfl, rfl, rfl⟩

end Sys2Proof.Machine
end

section
/-! PROOFS, family 30_encoding, part 1: the decoder, the encoder and the legal words are one thing said three ways. A
word whose reserved bits are 0 is that of its opcode and its flags, so each fact about a row or a command is one about
finitely many words. -/

namespace Sys2Proof

/-! ### The fields of a command word (R100) -/

theorem toNat_commandWord (op : BitVec 8) (s v z : Bool) : (commandWord op s v z).toNat =
    op.toNat + 2 ^ 8 * s.toNat + 2 ^ 9 * v.toNat + 2 ^ 10 * z.toNat := by
  simp only [commandWord, Machine.toNat_append_add, BitVec.toNat_ofBool, BitVec.toNat_ofNat]
  omega

/-- A word whose reserved bits are 0 is that of its opcode and its flags. -/
theorem eq_commandWord {w : Word} (h : CommandWord.reservedZero w = true) :
    w = commandWord (w.extractLsb' 0 8) (w.getLsbD 8) (w.getLsbD 9) (w.getLsbD 10) := by
  have hlt := toNat_lt_of_reservedZero h
  apply BitVec.eq_of_toNat_eq
  rw [toNat_commandWord, BitVec.extractLsb'_toNat, Nat.shiftRight_zero]
  simp only [BitVec.getLsbD, Nat.toNat_testBit]
  omega

/-! ### The rows of the opcode map (R102) -/

/-- Every row fixes OP. -/
theorem opcode_of_selects {r : OpcodeRow} (hr : r ∈ opcodeRows) {w : Word} (h : r.selects w = true) :
    w.extractLsb' 0 8 = r.pattern.extractLsb' 0 8 := by
  have hmask : ∀ r ∈ opcodeRows, r.mask.extractLsb' 0 8 = BitVec.allOnes 8 := by decide
  have hsel : w &&& r.mask = r.pattern := by simpa [OpcodeRow.selects] using h
  rw [← hsel, BitVec.extractLsb'_and, hmask r hr, BitVec.and_allOnes]

/-- A row makes of the word it is selected by the command whose encoding the word is. -/
theorem encode_make_of_selects {r : OpcodeRow} (hr : r ∈ opcodeRows) {w : Word} (h : r.selects w = true) :
    encode (r.make (w.getLsbD 8) (w.getLsbD 9) (w.getLsbD 10)) = w := by
  have hrow : ∀ r ∈ opcodeRows, ∀ s v z, r.selects (commandWord (r.pattern.extractLsb' 0 8) s v z) = true →
      encode (r.make s v z) = commandWord (r.pattern.extractLsb' 0 8) s v z := by decide
  have hw := eq_commandWord (reservedZero_of_selects hr h)
  rw [opcode_of_selects hr h] at hw
  have := hrow r hr (w.getLsbD 8) (w.getLsbD 9) (w.getLsbD 10) (hw ▸ h)
  rw [this, ← hw]

/-! ### The decoder and the encoder (R102, R104) -/

theorem eq_encode_of_decode {w : Word} {i : Instr} (h : decode w = .ok i) : w = encode i := by
  unfold decode at h
  split at h
  · rename_i r hfind
    cases h
    exact (encode_make_of_selects (List.mem_of_find?_eq_some hfind) (by simpa using List.find?_some hfind)).symm
  · cases h

theorem decode_encode (i : Instr) : decode (encode i) = .ok i := by
  cases i with
  | valBlockSize s => cases s <;> rfl
  | valSampleRate z => cases z <;> rfl
  | valLpcOrder s => cases s <;> rfl
  | valPartOrder s => cases s <;> rfl
  | setHeader v => cases v <;> rfl
  | encodeSection s v => cases s <;> cases v <;> rfl
  | decodeSection s v => cases s <;> cases v <;> rfl
  | fhvValidate z => cases z <;> rfl
  | _ => rfl

/-- Settles O11: a selected row's command has the word as its encoding, and every encoding is read back. -/
theorem decodeReadsExactlyTheEncodedWord : Obligations.DecodeReadsExactlyTheEncodedWord := by
  refine fun w i => ⟨eq_encode_of_decode, ?_⟩
  rintro rfl
  exact decode_encode i

/-! ### The legal words (R104, R105) -/

namespace CommandWord

theorem wellFormed_iff {w : Word} : wellFormed w = true ↔
    (w.extractLsb' 0 8).toNat ∈ opcodes ∧ reservedZero w = true ∧ flagsAdmitted w = true := by
  simp [wellFormed, opcodeListed, op, and_assoc]

theorem reservedZero_iff {w : Word} : reservedZero w = true ↔ w.extractLsb' 11 21 = 0 := by simp [reservedZero]

theorem flagsAdmitted_iff {w : Word} : flagsAdmitted w = true ↔
    (w.getLsbD 8 = true → (w.extractLsb' 0 8).toNat ∈ admitS) ∧
    (w.getLsbD 9 = true → (w.extractLsb' 0 8).toNat ∈ admitV) ∧
    (w.getLsbD 10 = true → (w.extractLsb' 0 8).toNat ∈ admitZ) := by
  simp only [flagsAdmitted, op, Bool.and_eq_true, Bool.or_eq_true, Bool.not_eq_true', List.contains_iff_mem, and_assoc,
    Bool.eq_false_iff, imp_iff_not_or, ne_eq]

end CommandWord

theorem wellFormed_encode (i : Instr) : CommandWord.wellFormed (encode i) = true := by
  cases i with
  | nop => exact Laws.EncodedWordLegal.nop
  | valBlockSize s => exact Laws.EncodedWordLegal.valBlockSize s
  | valChannels => exact Laws.EncodedWordLegal.valChannels
  | valBps => exact Laws.EncodedWordLegal.valBps
  | valSampleRate z => exact Laws.EncodedWordLegal.valSampleRate z
  | valLpcOrder s => exact Laws.EncodedWordLegal.valLpcOrder s
  | valPartOrder s => exact Laws.EncodedWordLegal.valPartOrder s
  | ensureCapacity => exact Laws.EncodedWordLegal.ensureCapacity
  | setHeader v => exact Laws.EncodedWordLegal.setHeader v
  | setPartition => exact Laws.EncodedWordLegal.setPartition
  | getPartition => exact Laws.EncodedWordLegal.getPartition
  | encodeSection s v => exact Laws.EncodedWordLegal.encodeSection s v
  | decodeSection s v => exact Laws.EncodedWordLegal.decodeSection s v
  | siLoad => exact Laws.EncodedWordLegal.siLoad
  | streamReset => exact Laws.EncodedWordLegal.streamReset
  | frameBegin => exact Laws.EncodedWordLegal.frameBegin
  | fhvValidate z => exact Laws.EncodedWordLegal.fhvValidate z
  | subsetCheck => exact Laws.EncodedWordLegal.subsetCheck

/-- Among the words of a listed opcode, the legal ones select a row. -/
theorem find?_isSome_of_wellFormed {w : Word} (h : CommandWord.wellFormed w = true) :
    (opcodeRows.find? (fun r => r.selects w)).isSome = true := by
  have hfinite : ∀ n ∈ CommandWord.opcodes, ∀ s v z,
      CommandWord.flagsAdmitted (commandWord (BitVec.ofNat 8 n) s v z) = true →
      (opcodeRows.find? (fun r => r.selects (commandWord (BitVec.ofNat 8 n) s v z))).isSome = true := by decide
  obtain ⟨hop, hzero, hflags⟩ := CommandWord.wellFormed_iff.1 h
  have hw : w = commandWord (BitVec.ofNat 8 (w.extractLsb' 0 8).toNat) (w.getLsbD 8) (w.getLsbD 9) (w.getLsbD 10) := by
    rw [BitVec.ofNat_toNat, BitVec.setWidth_eq]
    exact eq_commandWord hzero
  have hrow := hfinite _ hop (w.getLsbD 8) (w.getLsbD 9) (w.getLsbD 10)
  rw [← hw] at hrow
  exact hrow hflags

/-- Settles O12: an encoding is legal, and a legal word selects a row. -/
theorem decodeAcceptsExactlyTheLegalWords : Obligations.DecodeAcceptsExactlyTheLegalWords := by
  refine fun w => ⟨?_, fun h => ?_⟩
  · rintro ⟨i, hi⟩
    rw [eq_encode_of_decode hi]
    exact wellFormed_encode i
  · obtain ⟨r, hr⟩ := Option.isSome_iff_exists.1 (find?_isSome_of_wellFormed h)
    exact ⟨_, by rw [decode, hr]⟩

theorem decode_error_of_not_wellFormed {w : Word} (h : ¬ CommandWord.wellFormed w = true) :
    ∃ e, decode w = .error e := by
  cases hd : decode w with
  | error e => exact ⟨e, rfl⟩
  | ok i => exact absurd ((decodeAcceptsExactlyTheLegalWords w).1 ⟨i, hd⟩) h

/-- Settles O13: the ranges hold no listed opcode. -/
theorem reservedOpcodesAreIllegal : Obligations.ReservedOpcodesAreIllegal := by
  rintro w _ rfl hreserved
  have hlisted : ∀ n ∈ CommandWord.opcodes, ¬ ((0x07 ≤ n ∧ n ≤ 0x0F) ∨ (0x14 ≤ n ∧ n ≤ 0x1F) ∨
      (0x22 ≤ n ∧ n ≤ 0x2F) ∨ (0x34 ≤ n ∧ n ≤ 0x3F) ∨ (0x41 ≤ n ∧ n ≤ 0xFF)) := by decide
  exact decode_error_of_not_wellFormed fun hlegal =>
    hlisted _ (CommandWord.wellFormed_iff.1 hlegal).1 hreserved

/-- Settles O14: the patterns of two rows differ already where both masks look. -/
theorem noWordSelectsTwoRows : Obligations.NoWordSelectsTwoRows := by
  have hdiffer : opcodeRows.Pairwise (fun a b => a.pattern &&& b.mask ≠ b.pattern &&& a.mask) := by decide
  refine hdiffer.imp fun {a b} hne w ⟨ha, hb⟩ => hne ?_
  simp only [OpcodeRow.selects, beq_iff_eq] at ha hb
  rw [← ha, ← hb, BitVec.and_assoc, BitVec.and_assoc, BitVec.and_comm a.mask]

/-- Settles O15: the decoder run on each word. -/
theorem wordsOfEachFamilyDecodeAsTheSpecSays : Obligations.WordsOfEachFamilyDecodeAsTheSpecSays := by
  unfold Obligations.WordsOfEachFamilyDecodeAsTheSpecSays
  decide

end Sys2Proof

namespace Sys2Proof.Machine

/-- Settles O4: each of the reasons makes the word illegal, and CMD answers an illegal word with the code alone. -/
theorem illegalWordCompletesWithIllegalCommand : Obligations.IllegalWordCompletesWithIllegalCommand := by
  intro s w rest hnext hillegal
  have hw : ¬ CommandWord.wellFormed w = true := by
    rw [CommandWord.wellFormed_iff, CommandWord.reservedZero_iff, CommandWord.flagsAdmitted_iff]
    tauto
  obtain ⟨e, he⟩ := decode_error_of_not_wellFormed hw
  rw [step_write_offset (r := .cmd) hnext, writeReg, runCommand, he]
  simp [complete, setReply, Advisory.clear]

end Sys2Proof.Machine
end

section
/-! PROOFS, family 30_encoding, part 2: the bits of a partition, and the commands that write and read a section: the
entries and residuals they leave are read back from the runs they wrote. -/

namespace Sys2Proof.Machine

/-! ### The bits of a partition and its code (R111 to R113, R207, R209) -/

theorem length_partBits_rice (v : Variant) (k : Nat) (rs : List Word) :
    (partBits v (.rice k) rs).length = paramWidth v + cost rs k := by
  simp [partBits, cost, Function.comp_def]

theorem length_partBits_escaped (v : Variant) (w : Nat) (rs : List Word) :
    (partBits v (.escaped w) rs).length = paramWidth v + 5 + rs.length * w := by
  simp [partBits, Function.comp_def, length_rawBits]
  omega

theorem legalPart_chooseCode (v : Variant) (rs : List Word) : LegalPart v (chooseCode v rs, rs) := by
  unfold chooseCode
  split
  · rename_i h
    exact ⟨h.1, fun r hr => width_le_iff.1 (rawWidth_le_iff.1 (Nat.le_refl _) r hr)⟩
  · exact kbest_lt_escapeSentinel rs v

/-- Settles O32: the lengths add up residual by residual, and the raw width is one every residual fits. -/
theorem partitionBitsCostWhatTheChoiceCounts : Obligations.PartitionBitsCostWhatTheChoiceCounts :=
  fun v rs => ⟨(length_partBits_rice v · rs), (length_partBits_escaped v · rs), legalPart_chooseCode v rs⟩

/-! ### The runs written over the memories (R220, R230) -/

section Runs

variable (v : Variant) (parts : List Part) (s : State) {i : Nat}

theorem codes_writeCodes_inside (h : i < parts.length) : (writeCodes v parts s).readParam i = parts[i].1.param v ∧
    (writeCodes v parts s).readRaw i = parts[i].1.raw := by
  rw [State.readParam, State.readRaw, writeCodes_param, writeCodes_raw, read_writeRun_zero _ _ _ (by simpa using h),
    read_writeRun_zero _ _ _ (by simpa using h), List.getElem_map, List.getElem_map]
  exact ⟨rfl, rfl⟩

theorem codes_writeCodes_outside (h : parts.length ≤ i) : (writeCodes v parts s).readParam i = s.readParam i ∧
    (writeCodes v parts s).readRaw i = s.readRaw i :=
  ⟨Memory.read_writeRun_outside _ _ _ _ (.inr (by simpa using h)),
    Memory.read_writeRun_outside _ _ _ _ (.inr (by simpa using h))⟩

theorem readResRun_writeResiduals : (writeResiduals parts s).readResRun 0 (parts.map (fun q => q.2)).flatten.length =
    (parts.map (fun q => q.2)).flatten := by
  apply List.ext_getElem
  · simp [State.readResRun]
  · intro j _ hj
    simp only [State.readResRun, List.getElem_map, List.getElem_range', State.readRes, writeResiduals_res]
    rw [Nat.zero_add, Nat.one_mul, read_writeRun_zero _ _ _ hj]

theorem readRes_writeResiduals_outside (h : (parts.map (fun q => q.2)).flatten.length ≤ i) :
    (writeResiduals parts s).readRes i = s.readRes i :=
  Memory.read_writeRun_outside _ _ _ _ (.inr (by simpa using h))

end Runs

/-! ### DECODE (R230) -/

theorem decodeCore_ok {v : Variant} {bs p o start : Nat} {rd : Reader} {parts : List Part} {q : Nat}
    {rest : List Bool} (h : readParts v (partitionLengths bs p o) rd = .ok (parts, ⟨q, rest⟩)) (s : State) :
    decodeCore v bs p o start rd s = complete .ok (BitVec.ofNat 64 (q - start)) (orderAdvisory o)
      (setCvalid true { writeResiduals parts (writeCodes v parts (writeHeader o v s)) with inPos := q }) := by
  rw [decodeCore, partLens_eq, h]
  rfl

/-- Settles O38: the bits are read back as the partitions, whose codes and residuals are the runs written. -/
theorem decodeReadsEveryLegalSection : Obligations.DecodeReadsEveryLegalSection := by
  rintro s sub v _ _ o parts tail rfl rfl hf hb ho hs hd hp hlegal hlens hin
  obtain ⟨hcount, hflat⟩ := lengths_of_parts hlens hd hp
  have hbits : s.inPos + 4 + (parts.map (fun q => partBits v q.1 q.2)).flatten.length =
      s.inPos + (sectionBits v o parts).length := by
    rw [sectionBits, List.length_append, length_bitsOf, Nat.add_assoc]
  have hread := readParts_partBits parts hlegal (s.inPos + 4) tail
  rw [hlens, hbits] at hread
  rw [sectionBits, List.append_assoc] at hin
  have hexec := exec_decode_order (sub := sub) (v := v) hf hb ho hin
  rw [decodeOrdered_passes hs (geom_iff.2 ⟨hd, hp⟩)] at hexec
  refine ⟨_, hexec.trans (congrArg _ (decodeCore_ok hread s)), ?_, fun j hj => ?_,
    fun i hi => codes_writeCodes_inside v parts (writeHeader o v s) hi,
    fun i hi => codes_writeCodes_outside v parts (writeHeader o v s) (hcount ▸ hi), ?_⟩
  · rw [← hflat]
    exact readResRun_writeResiduals parts (writeCodes v parts (writeHeader o v s))
  · exact readRes_writeResiduals_outside parts (writeCodes v parts (writeHeader o v s)) (hflat ▸ hj)
  · simp [orderAdvisory_eq ho]

/-! ### ENCODE (R220) -/

theorem exec_encode_passes {s : State} {sub : Bool} {v : Variant} {bs p o : Nat} (hbs : s.arg 0 = bs)
    (hp : s.arg 1 = p) (ho : s.arg 2 = o) (ho15 : o ≤ 15) (hs : sub = true → o ≤ 8) (hb : bs ≤ 65535)
    (hg : geom bs p o = true) : exec (.encodeSection sub v) s = .next (encodeCore v bs p o s) := by
  have hs' : ¬ (sub && decide (o > 8)) = true := by simpa using hs
  rw [exec, execEncodeSection, hbs, hp, ho]
  simp only [if_neg (Nat.not_lt.2 ho15), if_neg hs', if_neg (Nat.not_lt.2 hb), hg]
  rfl

theorem partBits_chooseCode (v : Variant) (rs : List Word) : partBits v (chooseCode v rs) rs =
    if rawWidth rs ≤ 31 ∧ cost rs (kbest rs v) > rs.length * rawWidth rs then partBits v (.escaped (rawWidth rs)) rs
    else partBits v (.rice (kbest rs v)) rs := by
  unfold chooseCode
  split <;> rfl

theorem escapeSentinel_eq (v : Variant) : escapeSentinel v = if v = .rice then 15 else 31 := by cases v <;> rfl

/-- The entries of the chosen code (R209, R220). -/
theorem entries_chooseCode (v : Variant) (rs : List Word) :
    if rawWidth rs ≤ 31 ∧ cost rs (kbest rs v) > rs.length * rawWidth rs
    then ((chooseCode v rs).param v).toNat = (if v = .rice then 15 else 31) ∧
      (chooseCode v rs).raw.toNat = rawWidth rs
    else ((chooseCode v rs).param v).toNat = kbest rs v ∧ (chooseCode v rs).raw = 0 := by
  unfold chooseCode
  split
  · rename_i h
    rw [PartCode.param_escaped, escapeSentinel_eq, PartCode.raw, BitVec.toNat_ofNat, Nat.mod_eq_of_lt (by omega)]
    exact ⟨rfl, rfl⟩
  · exact ⟨PartCode.param_rice (kbest_lt_escapeSentinel rs v), rfl⟩

/-- ENCODE once its checks have passed, its partitions written out (R220, R222). -/
theorem encodeCore_eq (v : Variant) (bs p o : Nat) (s : State) : encodeCore v bs p o s =
    complete .ok (BitVec.ofNat 64 (sectionBits v o (s.encodeParts v bs p o)).length) (orderAdvisory o)
      (setCvalid true (appendBits (sectionBits v o (s.encodeParts v bs p o))
        (writeCodes v (s.encodeParts v bs p o) (writeHeader o v s)))) := rfl

theorem getElem_encodeParts (s : State) (v : Variant) (bs p o : Nat) {i : Nat}
    (h : i < (s.encodeParts v bs p o).length) : (s.encodeParts v bs p o)[i] =
      (chooseCode v (s.partResiduals bs p o i), s.partResiduals bs p o i) := by
  simp [encodeParts_eq]

/-- Settles O35: the partitions ENCODE makes are those of the residual RAM, each with its chosen code. -/
theorem encodeWritesTheSection : Obligations.EncodeWritesTheSection := by
  intro s sub v bs p o P hbs hpred hord ho hs hb hd hp hP
  obtain rfl : P = s.partResiduals bs p o := funext hP
  have hexec := exec_encode_passes (v := v) hbs hpred hord ho hs hb (geom_iff.2 ⟨hd, hp⟩)
  rw [encodeCore_eq] at hexec
  have hcount := length_encodeParts s v bs p o
  refine ⟨_, hexec, ?_, fun i hi => ?_, fun i hi => ?_, ?_⟩
  · simp [sectionBits, encodeParts_eq, Function.comp_def, partBits_chooseCode]
  · obtain ⟨hparam, hraw⟩ := codes_writeCodes_inside v _ (writeHeader o v s) (hcount.symm ▸ hi)
    have hentries := entries_chooseCode v (s.partResiduals bs p o i)
    rw [getElem_encodeParts] at hparam hraw
    rw [← hparam, ← hraw] at hentries
    exact hentries
  · exact codes_writeCodes_outside v _ (writeHeader o v s) (hcount.symm ▸ hi)
  · simp [State.outLen, orderAdvisory_eq ho]

end Sys2Proof.Machine
end

section
/-! PROOFS, family 30_encoding, part 3: a command reads no ARG register but its operands. Run on two states that agree on
these, it takes the same branches and writes the same values, and no operation on the state looks at ARG: the two ends
differ in the ARG registers alone. -/

namespace Sys2Proof.Machine

/-- The state with other values in ARG0 to ARG7. -/
def State.withArgs (args' : Vector Word 8) (s : State) : State := { s with args := args' }

/-- The second outcome is the first with ARG holding `args'`. -/
def SameButArgs (args' : Vector Word 8) (x y : Host.Outcome State Fault Refusal) : Prop :=
  ∀ t, x = .next t → y = .next (t.withArgs args')

namespace SameButArgs

variable {args' : Vector Word 8}

theorem next (t : State) : SameButArgs args' (.next t) (.next (t.withArgs args')) := by
  rintro _ ⟨⟩
  rfl

theorem branch {c : Prop} [Decidable c] {x x' y y' : Host.Outcome State Fault Refusal} (h : SameButArgs args' x x')
    (h' : SameButArgs args' y y') : SameButArgs args' (if c then x else y) (if c then x' else y') := by
  split
  · exact h
  · exact h'

end SameButArgs

section Operands

variable (args' : Vector Word 8) (s : State)

/-! ### What does not look at ARG -/

@[simp] theorem withArgs_cfg : (s.withArgs args').cfg = s.cfg := rfl
@[simp] theorem withArgs_si : (s.withArgs args').si = s.si := rfl
@[simp] theorem withArgs_siValid : (s.withArgs args').siValid = s.siValid := rfl
@[simp] theorem withArgs_fhv : (s.withArgs args').fhv = s.fhv := rfl
@[simp] theorem withArgs_prVariant : (s.withArgs args').prVariant = s.prVariant := rfl
@[simp] theorem withArgs_inPos : (s.withArgs args').inPos = s.inPos := rfl
@[simp] theorem withArgs_partitionCount : (s.withArgs args').partitionCount = s.partitionCount := rfl
@[simp] theorem withArgs_reader : (s.withArgs args').reader = s.reader := rfl

@[simp] theorem validate_withArgs (fmt sub b : Bool) (a : Advisory) :
    validate fmt sub b a (s.withArgs args') = (validate fmt sub b a s).withArgs args' := by
  rw [validate_eq, validate_eq]
  rfl

@[simp] theorem decodeCore_withArgs (v : Variant) (bs p o start : Nat) (rd : Reader) :
    decodeCore v bs p o start rd (s.withArgs args') = (decodeCore v bs p o start rd s).withArgs args' := by
  unfold decodeCore
  cases readParts v (partLens bs p o) rd <;> rfl

/-! ### What looks at operands -/

variable {args'} {s}

/-- `of_decide_eq_true rfl` shows that an operand is listed, whatever the command's flags. -/
theorem SameOperands.arg_eq {i : Instr} (h : SameOperands i s (s.withArgs args')) (k : Fin 8)
    (hk : k.val < operandCount i) : (s.withArgs args').arg k = s.arg k :=
  congrArg BitVec.toNat (h k hk).symm

theorem SameOperands.siMask_eq (h : SameOperands .siLoad s (s.withArgs args')) :
    siMask (s.withArgs args') = siMask s := by
  simp (disch := exact of_decide_eq_true rfl) only [siMask, h.arg_eq]

theorem SameOperands.siOperands_eq (h : SameOperands .siLoad s (s.withArgs args')) :
    (s.withArgs args').siOperands = s.siOperands := by
  have reg (k : Fin 8) (hk : k.val < 7) : (s.withArgs args').args[k] = s.args[k] := (h k hk).symm
  simp only [State.siOperands, State.argTotal, StreamInfo.mk.injEq]
  exact ⟨reg 0 (by decide), reg 1 (by decide), reg 2 (by decide), reg 3 (by decide), reg 4 (by decide),
    congrArg₂ (· ++ ·) (reg 6 (by decide)) (reg 5 (by decide))⟩

theorem SameOperands.fhvMask_eq {z : Bool} (h : SameOperands (.fhvValidate z) s (s.withArgs args')) :
    fhvMask z (s.withArgs args') = fhvMask z s := by
  simp (disch := exact of_decide_eq_true rfl) only [fhvMask, frameBlockOk, frameRateOk, withArgs_si,
    withArgs_siValid, h.arg_eq]

theorem SameOperands.subsetResult_eq (h : SameOperands .subsetCheck s (s.withArgs args')) :
    subsetResult (s.withArgs args') = subsetResult s := by
  have hmask : subsetMask (s.withArgs args') = subsetMask s := by
    simp (disch := exact of_decide_eq_true rfl) only [subsetMask, withArgs_cfg, h.arg_eq]
  have hillegal : formatIllegal (s.withArgs args') = formatIllegal s := by
    simp (disch := exact of_decide_eq_true rfl) only [formatIllegal, h.arg_eq]
  rw [subsetResult, hmask, hillegal, subsetResult]

theorem SameOperands.decodeOrdered_eq {sub sub' : Bool} {v v' : Variant} {o start : Nat} {rd : Reader}
    (h : SameOperands (.decodeSection sub' v') s (s.withArgs args')) :
    decodeOrdered sub v o start rd (s.withArgs args') = (decodeOrdered sub v o start rd s).withArgs args' := by
  simp (disch := exact of_decide_eq_true rfl) only [decodeOrdered, h.arg_eq, decodeCore_withArgs]
  split
  · rfl
  · split <;> rfl

theorem execDecodeSection_sameButArgs {sub : Bool} {v : Variant}
    (h : SameOperands (.decodeSection sub v) s (s.withArgs args')) :
    SameButArgs args' (execDecodeSection sub v s) (execDecodeSection sub v (s.withArgs args')) := by
  simp (disch := exact of_decide_eq_true rfl) only [execDecodeSection, withArgs_fhv, withArgs_reader, withArgs_inPos,
    h.arg_eq, h.decodeOrdered_eq]
  refine .branch (.next _) (.branch (.next _) ?_)
  split <;> exact .next _

/-- One branch structure a command: its tests read operands and what is not ARG, and each end is an update of the state
that keeps ARG. -/
theorem exec_sameButArgs {i : Instr} (h : SameOperands i s (s.withArgs args')) :
    SameButArgs args' (exec i s) (exec i (s.withArgs args')) := by
  cases i with
  | nop => exact .next _
  | valBlockSize sub =>
    simp (disch := exact of_decide_eq_true rfl) only [exec, execValBlockSize, h.arg_eq, withArgs_cfg, validate_withArgs]
    exact .next _
  | valChannels =>
    simp (disch := exact of_decide_eq_true rfl) only [exec, execValChannels, h.arg_eq, validate_withArgs]
    exact .next _
  | valBps =>
    simp (disch := exact of_decide_eq_true rfl) only [exec, execValBps, h.arg_eq, validate_withArgs]
    exact .next _
  | valSampleRate z =>
    simp (disch := exact of_decide_eq_true rfl) only [exec, execValSampleRate, h.arg_eq, validate_withArgs]
    exact .next _
  | valLpcOrder sub =>
    simp (disch := exact of_decide_eq_true rfl) only [exec, execValLpcOrder, h.arg_eq, validate_withArgs]
    exact .next _
  | valPartOrder sub =>
    simp (disch := exact of_decide_eq_true rfl) only [exec, execValPartOrder, h.arg_eq, validate_withArgs]
    exact .next _
  | ensureCapacity =>
    simp (disch := exact of_decide_eq_true rfl) only [exec, execEnsureCapacity, h.arg_eq]
    exact .branch (.next _) (.next _)
  | setHeader v =>
    simp (disch := exact of_decide_eq_true rfl) only [exec, execSetHeader, h.arg_eq]
    exact .branch (.next _) (.next _)
  | setPartition =>
    simp (disch := exact of_decide_eq_true rfl) only [exec, execSetPartition, withArgs_partitionCount,
      withArgs_prVariant, h.arg_eq]
    exact .branch (.next _) (.branch (.next _) (.next _))
  | getPartition =>
    simp (disch := exact of_decide_eq_true rfl) only [exec, execGetPartition, withArgs_partitionCount, h.arg_eq]
    exact .branch (.next _) (.next _)
  | encodeSection sub v =>
    simp (disch := exact of_decide_eq_true rfl) only [exec, execEncodeSection, h.arg_eq]
    exact .branch (.next _) (.branch (.next _) (.branch (.next _) (.branch (.next _) (.next _))))
  | decodeSection sub v => exact execDecodeSection_sameButArgs h
  | siLoad =>
    simp (disch := exact of_decide_eq_true rfl) only [exec, execSiLoad, withArgs_siValid, h.siMask_eq,
      h.siOperands_eq, h.arg_eq]
    exact .branch (.next _) (.branch (.next _) (.next _))
  | streamReset => exact .next _
  | frameBegin => exact .next _
  | fhvValidate z =>
    simp (disch := exact of_decide_eq_true rfl) only [exec, execFhvValidate, withArgs_fhv, h.fhvMask_eq, h.arg_eq]
    exact .branch (.next _) (.branch (.next _) (.next _))
  | subsetCheck =>
    simp (disch := exact of_decide_eq_true rfl) only [exec, execSubsetCheck, h.subsetResult_eq, h.arg_eq]
    exact .next _

end Operands

/-- Settles O60: `exec_sameButArgs` says it of every command. -/
theorem commandsReadOnlyTheirOperands : Obligations.CommandsReadOnlyTheirOperands :=
  fun _ _ t _ h => exec_sameButArgs h t

end Sys2Proof.Machine
end

section
/-! PROOFS, family 40_format_limits: a validator's completion as one update of the state, the ranges its predicates
accept, and that it depends on its operands alone. -/

namespace Sys2Proof.Machine

/-! ### The completion of a validator (R140) -/

/-- Every completion but with IndexOutOfRange leaves FATAL (R310). -/
theorem complete_eq_update {c : StatusCode} (hc : c ≠ .indexOutOfRange) (r : Word64) (adv : Advisory) (s : State) :
    complete c r adv s = { s with code := c, result := r, advisory := adv } := by
  simp [complete, hc]

/-- `F` says that the operand violates the full format and `S` that it violates the Subset rule; a full-format violation
is a Subset violation too. -/
theorem validate_eq_update {fmtOk subOk : Bool} {F S : Prop} [Decidable F] [Decidable S] (hfmt : ¬ fmtOk = true ↔ F)
    (hsub : ¬ subOk = true ↔ F ∨ S) (b : Bool) (adv : Advisory) (s : State) :
    validate (!fmtOk) (!subOk) b adv s = { s with
      code := if F ∨ (b = true ∧ S) then .outOfRange else .ok,
      result := if F then 3 else if S then 2 else 0,
      advisory := adv } := by
  have hcode : (!fmtOk || (b && !subOk)) = true ↔ F ∨ (b = true ∧ S) := by
    simp only [Bool.or_eq_true, Bool.and_eq_true, Bool.not_eq_true', ← Bool.not_eq_true, hfmt, hsub]
    tauto
  have hresult : violationBits (!fmtOk) (!subOk) = if F then 3 else if S then 2 else 0 := by
    simp only [violationBits, Bool.not_eq_true', ← Bool.not_eq_true, hfmt, hsub]
    by_cases hF : F <;> by_cases hS : S <;> simp [hF, hS]
  rw [validate_eq, hresult, complete_eq_update (by split <;> simp)]
  simp only [hcode]

/-- A validator of one regime, on a legal operand. -/
theorem validate_of_legal {ok : Bool} (h : ok = true) (adv : Advisory) (s : State) :
    validate (!ok) (!ok) false adv s = { s with code := .ok, result := 0, advisory := adv } := by
  simpa [h] using validate_eq_update (fmtOk := ok) (subOk := ok) (F := False) (S := False) (by simp [h]) (by simp [h])
    false adv s

/-- A validator of one regime, on an illegal operand. -/
theorem validate_of_illegal {ok : Bool} (h : ¬ ok = true) (adv : Advisory) (s : State) :
    validate (!ok) (!ok) false adv s = { s with code := .outOfRange, result := 3, advisory := adv } := by
  simpa [h] using validate_eq_update (fmtOk := ok) (subOk := ok) (F := True) (S := True) (by simp [h]) (by simp [h])
    false adv s

/-! ### The ranges of the predicates (R141 to R151) -/

theorem bsFmt_iff {n : Nat} : bsFmt n = true ↔ 16 ≤ n ∧ n ≤ 65535 := decide_eq_true_iff

theorem bsSub_iff {cfg : Config} {n rate : Nat} : bsSub cfg n rate = true ↔ (16 ≤ n ∧ n ≤ 65535) ∧
    n ∈ cfg.canonBlockSizes ∧ (rate > 48000 ∨ n ≤ 4608) ∧ (rate ≤ 48000 ∨ n ≤ cfg.subsetMaxBsHighRate) := by
  simp [bsSub, bsFmt_iff, and_assoc]

theorem chOk_iff {c : Nat} : chOk c = true ↔ 1 ≤ c ∧ c ≤ 8 := decide_eq_true_iff

theorem bpsOk_iff {b : Nat} : bpsOk b = true ↔ 4 ≤ b ∧ b ≤ 32 := decide_eq_true_iff

theorem bpsAdv_iff {b : Nat} : bpsAdv b = true ↔ 25 ≤ b ∧ b ≤ 32 := decide_eq_true_iff

theorem rateOk_iff {r : Nat} {z : Bool} : rateOk r z = true ↔ (1 ≤ r ∧ r ≤ 655350) ∨ (r = 0 ∧ z = true) := by
  simp [rateOk]

theorem not_rateOk_iff {r : Nat} {z : Bool} : ¬ rateOk r z = true ↔ r > 655350 ∨ (r = 0 ∧ z = false) := by
  rw [rateOk_iff]
  cases z <;> simp <;> omega

theorem lpcFmt_iff {o : Nat} : lpcFmt o = true ↔ o ≤ 32 := decide_eq_true_iff

theorem lpcSub_iff {o rate : Nat} : lpcSub o rate = true ↔ o ≤ 32 ∧ (rate > 48000 ∨ o ≤ 12) := by
  simp [lpcSub, lpcFmt_iff]

theorem poFmt_iff {o : Nat} : poFmt o = true ↔ o ≤ 15 := decide_eq_true_iff

theorem poSub_iff {o : Nat} : poSub o = true ↔ o ≤ 8 := decide_eq_true_iff

/-- A legal width is flagged exactly when it lies above 24 (R145). -/
theorem bpsAdvisory_of_legal {b : Nat} (h : 4 ≤ b ∧ b ≤ 32) : bpsAdvisory (bpsAdv b) = ⟨decide (25 ≤ b), false⟩ := by
  simp [bpsAdvisory, bpsAdv, h.2]

/-- An illegal width is not also flagged (R146). -/
theorem bpsAdvisory_of_illegal {b : Nat} (h : b < 4 ∨ b > 32) : bpsAdvisory (bpsAdv b) = ⟨false, false⟩ := by
  have hb : ¬ bpsAdv b = true := mt bpsAdv_iff.1 (by omega)
  simp [bpsAdvisory, hb]

/-! ### The validators of two regimes (R141, R149, R151) -/

/-- Settles O16: a Subset violation is a full-format one or one of the three Subset rules. -/
theorem valBlockSizeChecksBothRegimes : Obligations.ValBlockSizeChecksBothRegimes := by
  refine ⟨fun sub => by cases sub <;> rfl, ?_⟩
  intro s sub n rate hn hrate
  obtain rfl : s.arg 0 = n := hn
  obtain rfl : s.arg 1 = rate := hrate
  exact congrArg _ (validate_eq_update (not_congr bsFmt_iff) ((not_congr bsSub_iff).trans not_and_or) sub _ s)

/-- Settles O20: an order above 32 breaks both regimes, one above 12 the Subset's up to 48000 Hz. -/
theorem valLpcOrderChecksBothRegimes : Obligations.ValLpcOrderChecksBothRegimes := by
  refine ⟨fun sub => by cases sub <;> rfl, ?_⟩
  intro s sub o rate ho hrate
  obtain rfl : s.arg 0 = o := ho
  obtain rfl : s.arg 1 = rate := hrate
  refine congrArg _ (validate_eq_update ?_ ?_ sub _ s)
  · rw [lpcFmt_iff]; exact not_le
  · rw [lpcSub_iff]; omega

/-- Settles O21: an order above 15 breaks both regimes, one above 8 the Subset's. -/
theorem valPartOrderChecksBothRegimes : Obligations.ValPartOrderChecksBothRegimes := by
  refine ⟨fun sub => by cases sub <;> rfl, ?_⟩
  intro s sub o ho
  obtain rfl : s.arg 0 = o := ho
  refine congrArg _ (validate_eq_update ?_ ?_ sub _ s)
  · rw [poFmt_iff]; exact not_le
  · rw [poSub_iff]; omega

/-! ### The validators of one regime (R143, R145, R147) -/

/-- Settles O17: the two ranges are the two values of `chOk`. -/
theorem valChannelsAcceptsOneToEight : Obligations.ValChannelsAcceptsOneToEight := by
  refine ⟨rfl, ?_⟩
  intro s c hc
  obtain rfl : s.arg 0 = c := hc
  exact ⟨fun h => congrArg _ (validate_of_legal (chOk_iff.2 h) _ s),
    fun h => congrArg _ (validate_of_illegal (mt chOk_iff.1 (by omega)) _ s)⟩

/-- Settles O18: the two ranges are the two values of `bpsOk`, and the advisory is read off in each. -/
theorem valBpsFlagsAboveTwentyFour : Obligations.ValBpsFlagsAboveTwentyFour := by
  refine ⟨rfl, ?_⟩
  intro s b hb
  obtain rfl : s.arg 0 = b := hb
  refine ⟨fun h => ?_, fun h => ?_⟩
  · rw [← bpsAdvisory_of_legal h]
    exact congrArg _ (validate_of_legal (bpsOk_iff.2 h) _ s)
  · rw [← bpsAdvisory_of_illegal h]
    exact congrArg _ (validate_of_illegal (mt bpsOk_iff.1 (by omega)) _ s)

/-- Settles O19: the two ranges are the two values of `rateOk`; Z counts at 0 alone. -/
theorem valSampleRateAllowsZeroOnlyWithZ : Obligations.ValSampleRateAllowsZeroOnlyWithZ := by
  refine ⟨fun z => by cases z <;> rfl, ?_⟩
  intro s z r hr
  obtain rfl : s.arg 0 = r := hr
  exact ⟨fun h => congrArg _ (validate_of_legal (rateOk_iff.2 h) _ s),
    fun h => congrArg _ (validate_of_illegal (not_rateOk_iff.2 h) _ s)⟩

/-! ### Validators and SUBSET_CHECK as functions of their operands (R153, R282) -/

section Operands

variable {s s' : State}

theorem SameOperands.arg_congr {i : Instr} (h : SameOperands i s s') (k : Fin 8) (hk : k.val < operandCount i) :
    s.arg k = s'.arg k :=
  congrArg BitVec.toNat (h k hk)

theorem bsSub_congr {cfg cfg' : Config} (hcanon : cfg.canonBlockSizes = cfg'.canonBlockSizes)
    (hmax : cfg.subsetMaxBsHighRate = cfg'.subsetMaxBsHighRate) : bsSub cfg = bsSub cfg' := by
  unfold bsSub
  rw [hcanon, hmax]

theorem subsetResult_congr (h : SameOperands .subsetCheck s s') (hbs : bsSub s.cfg = bsSub s'.cfg) :
    subsetResult s = subsetResult s' := by
  have hmask : subsetMask s = subsetMask s' := by
    simp (disch := exact of_decide_eq_true rfl) only [subsetMask, hbs, h.arg_congr]
  have hillegal : formatIllegal s = formatIllegal s' := by
    simp (disch := exact of_decide_eq_true rfl) only [formatIllegal, h.arg_congr]
  rw [subsetResult, hmask, hillegal, subsetResult]

/-- Run on `s` and on `s'`, the command writes the same code, RESULT and ADVISORY and nothing else; SUBSET_CHECK's code
is OK. -/
def SameOutputs (i : Instr) (s s' : State) : Prop :=
  ∃ c r a, exec i s = .next { s with code := c, result := r, advisory := a } ∧
    exec i s' = .next { s' with code := c, result := r, advisory := a } ∧ (i = .subsetCheck → c = .ok)

theorem SameOutputs.of_complete {i : Instr} {c : StatusCode} {r : Word64} {a : Advisory}
    (h : exec i s = .next (complete c r a s)) (h' : exec i s' = .next (complete c r a s'))
    (hc : c ≠ .indexOutOfRange) (hok : i = .subsetCheck → c = .ok) : SameOutputs i s s' :=
  ⟨c, r, a, complete_eq_update hc r a s ▸ h, complete_eq_update hc r a s' ▸ h', hok⟩

theorem SameOutputs.of_validate {i : Instr} {fmt sub b : Bool} {a : Advisory} (hi : i ≠ .subsetCheck)
    (h : exec i s = .next (validate fmt sub b a s)) (h' : exec i s' = .next (validate fmt sub b a s')) :
    SameOutputs i s s' := by
  rw [validate_eq] at h h'
  exact .of_complete h h' (by split <;> simp) fun he => absurd he hi

end Operands

/-- Settles O22: the arguments of `validate`, and the result of SUBSET_CHECK, are made of operands alone. -/
theorem validatorsDependOnOperandsAlone : Obligations.ValidatorsDependOnOperandsAlone := by
  intro s s' i hops hcfg hi
  change SameOutputs i s s'
  cases i with
  | valBlockSize sub =>
    obtain ⟨hcanon, hmax⟩ := hcfg (by cases sub <;> simp)
    refine .of_validate nofun rfl ?_
    simp (disch := exact of_decide_eq_true rfl) only [exec, execValBlockSize, hops.arg_congr, bsSub_congr hcanon hmax]
  | valChannels =>
    refine .of_validate nofun rfl ?_
    simp (disch := exact of_decide_eq_true rfl) only [exec, execValChannels, hops.arg_congr]
  | valBps =>
    refine .of_validate nofun rfl ?_
    simp (disch := exact of_decide_eq_true rfl) only [exec, execValBps, hops.arg_congr]
  | valSampleRate z =>
    refine .of_validate nofun rfl ?_
    simp (disch := exact of_decide_eq_true rfl) only [exec, execValSampleRate, hops.arg_congr]
  | valLpcOrder sub =>
    refine .of_validate nofun rfl ?_
    simp (disch := exact of_decide_eq_true rfl) only [exec, execValLpcOrder, hops.arg_congr]
  | valPartOrder sub =>
    refine .of_validate nofun rfl ?_
    simp (disch := exact of_decide_eq_true rfl) only [exec, execValPartOrder, hops.arg_congr]
  | subsetCheck =>
    obtain ⟨hcanon, hmax⟩ := hcfg (by simp)
    refine .of_complete rfl ?_ nofun fun _ => rfl
    rw [subsetResult_congr hops (bsSub_congr hcanon hmax), hops.arg_congr 3 (by decide)]
    rfl
  | _ => simp at hi

end Sys2Proof.Machine
end

section
/-! PROOFS, family 41_rice_contents: what the operations on the contents leave to be read, and from it the commands'
outcomes, check by check. -/

namespace Sys2Proof.Machine

/-! ### Completion with IndexOutOfRange (R186, R310) -/

theorem complete_indexOutOfRange (r : Word64) (adv : Advisory) (s : State) : complete .indexOutOfRange r adv s =
    { s with code := .indexOutOfRange, fatal := true, result := r, advisory := adv } := by
  simp [complete]

/-! ### Capacity and header (R170, R171, R175) -/

/-- CAP_ORDER holds the maximum of R170 without loss, so RESULT shows it. -/
theorem capResult_ensure {o : Nat} (ho : o ≤ 15) (s : State) :
    (ensure o s).capResult = BitVec.ofNat 64 (max s.capOrder.toNat o) := by
  rw [State.capResult, ensure_capOrder, ← BitVec.ofNat_toNat, toNat_max_order _ ho]

theorem capResult_writeHeader {o : Nat} (ho : o ≤ 15) (v : Variant) (s : State) :
    (writeHeader o v s).capResult = BitVec.ofNat 64 (max s.capOrder.toNat o) :=
  capResult_ensure ho s

/-- Settles O23: the order passes the check or not, and RESULT is the capacity grown to it. -/
theorem ensureCapacityGrowsToTheOrder : Obligations.EnsureCapacityGrowsToTheOrder := by
  refine ⟨rfl, ?_⟩
  intro s o ho
  obtain rfl : s.arg 0 = o := ho
  refine ⟨fun h => ?_, fun h => ?_⟩
  · rw [← capResult_ensure h, exec, execEnsureCapacity, if_neg (Nat.not_lt.2 h)]
    exact congrArg _ (complete_eq_update (by decide) _ _ _)
  · rw [exec, execEnsureCapacity, if_pos h]
    exact congrArg _ (complete_eq_update (by decide) _ _ _)

/-- Settles O24: the check of ENSURE_CAPACITY, with order and variant written beside the capacity. -/
theorem setHeaderWritesOrderAndVariant : Obligations.SetHeaderWritesOrderAndVariant := by
  refine ⟨⟨rfl, rfl⟩, ?_⟩
  intro s v o ho
  obtain rfl : s.arg 0 = o := ho
  refine ⟨fun h => ?_, fun h => ?_⟩
  · rw [← capResult_writeHeader h v, exec, execSetHeader, if_neg (Nat.not_lt.2 h)]
    exact congrArg _ (complete_eq_update (by decide) _ _ _)
  · rw [exec, execSetHeader, if_pos h]
    exact congrArg _ (complete_eq_update (by decide) _ _ _)

/-! ### Writing an entry (R180, R182) -/

theorem entryLegal_iff {v : Variant} {prm raw : Nat} : entryLegal v prm raw = true ↔
    prm ≤ escapeSentinel v ∧ raw ≤ 31 ∧ (prm = escapeSentinel v ∨ raw = 0) := by
  simp [entryLegal, and_assoc]

/-- Both sentinels fit the five bits of an entry (R45). -/
theorem escapeSentinel_le (v : Variant) : escapeSentinel v ≤ 31 := by cases v <;> decide

theorem readParam_writePartition_same (i : Nat) {prm : Nat} (h : prm ≤ 31) (raw : Nat) (s : State) :
    ((writePartition i prm raw s).readParam i).toNat = prm := by
  rw [State.readParam, writePartition_param, Memory.read_write_same, BitVec.toNat_ofNat, Nat.mod_eq_of_lt (by omega)]

theorem readRaw_writePartition_same (i prm : Nat) {raw : Nat} (h : raw ≤ 31) (s : State) :
    ((writePartition i prm raw s).readRaw i).toNat = raw := by
  rw [State.readRaw, writePartition_raw, Memory.read_write_same, BitVec.toNat_ofNat, Nat.mod_eq_of_lt (by omega)]

theorem entry_writePartition_other {i j : Nat} (h : j ≠ i) (prm raw : Nat) (s : State) :
    (writePartition i prm raw s).readParam j = s.readParam j ∧ (writePartition i prm raw s).readRaw j = s.readRaw j :=
  ⟨Memory.read_write_other _ _ _ h, Memory.read_write_other _ _ _ h⟩

/-- Settles O25: the index is checked before the entry, and a legal entry is read back from the one write. -/
theorem setPartitionWritesOneLegalEntry : Obligations.SetPartitionWritesOneLegalEntry := by
  refine ⟨rfl, ?_⟩
  intro s i prm raw esc hi hprm hraw hesc
  obtain rfl : s.arg 0 = i := hi
  obtain rfl : s.arg 1 = prm := hprm
  obtain rfl : s.arg 2 = raw := hraw
  rw [← escapeSentinel_eq] at hesc
  subst hesc
  rw [exec, execSetPartition, State.partitionCount]
  refine ⟨fun hindex => ?_, fun hindex hbad => ?_, fun hindex hp hw he => ?_⟩
  · rw [if_pos hindex]
    exact congrArg _ (complete_indexOutOfRange _ _ _)
  · have hlegal : ¬ entryLegal s.prVariant (s.arg 1) (s.arg 2) = true := by
      rw [entryLegal_iff]
      omega
    rw [if_neg (Nat.not_le.2 hindex), if_pos (by simpa using hlegal)]
    exact congrArg _ (complete_eq_update (by decide) _ _ _)
  · have hlegal : entryLegal s.prVariant (s.arg 1) (s.arg 2) = true := entryLegal_iff.2 ⟨hp, hw, he⟩
    have hp31 : s.arg 1 ≤ 31 := hp.trans (escapeSentinel_le _)
    rw [if_neg (Nat.not_le.2 hindex), if_neg (by simpa using hlegal), finish_eq, complete_eq_update (by decide)]
    exact ⟨_, rfl, readParam_writePartition_same _ hp31 (s.arg 2) s, readRaw_writePartition_same _ (s.arg 1) hw s,
      fun _ hj => entry_writePartition_other hj _ _ s, rfl⟩

/-! ### Reading an entry (R185) -/

/-- The fields of the result do not overlap, so their concatenation is their sum. -/
theorem partitionResult_eq (v : Variant) (p w : BitVec 5) : partitionResult v p w =
    BitVec.ofNat 64 (p.toNat + w.toNat * 2 ^ 8 + if p.toNat = escapeSentinel v then 2 ^ 16 else 0) := by
  have hesc : (p.toNat == escapeSentinel v).toNat * 2 ^ 16 = if p.toNat = escapeSentinel v then 2 ^ 16 else 0 := by
    simp [toNat_bool_mul]
  have hbit := Bool.toNat_le (p.toNat == escapeSentinel v)
  rw [← hesc]
  apply BitVec.eq_of_toNat_eq
  simp only [partitionResult, toNat_append_add, BitVec.toNat_ofNat, BitVec.toNat_ofBool]
  omega

/-- Settles O26: below the number of partitions RESULT is laid out from the entry read. -/
theorem getPartitionReturnsTheEntry : Obligations.GetPartitionReturnsTheEntry := by
  refine ⟨rfl, ?_⟩
  intro s i esc hi hesc
  obtain rfl : s.arg 0 = i := hi
  rw [← escapeSentinel_eq] at hesc
  subst hesc
  rw [exec, execGetPartition, State.partitionCount]
  refine ⟨fun hindex => ?_, fun hindex => ?_⟩
  · rw [if_neg (Nat.not_le.2 hindex), partitionResult_eq]
    exact congrArg _ (complete_eq_update (by decide) _ _ _)
  · rw [if_pos hindex]
    exact congrArg _ (complete_indexOutOfRange _ _ _)

end Sys2Proof.Machine
end

section
/-! PROOFS, family 42_residual_codec, part 1: the codec's functions as numbers: the sign fold, the widths, the choice of a
code, and the reading of one Rice code. -/

namespace Sys2Proof.Machine

/-! ### The sign fold (R204, R205) -/

/-- The fold as integers: twice a non-negative number, and the odd numbers for the negative ones. -/
theorem zigzag_toNat_eq_toInt (r : Word) :
    ((zigzag r).toNat : Int) = if 0 ≤ r.toInt then 2 * r.toInt else -2 * r.toInt - 1 := by
  have hr := r.isLt
  rw [zigzag_toNat, BitVec.toInt_eq_msb_cond]
  cases r.msb with
  | false => simp
  | true =>
    have hneg : ¬ 0 ≤ (r.toNat : Int) - (2 ^ 32 : Nat) := by omega
    rw [if_pos rfl, if_pos rfl, if_neg hneg]
    omega

theorem unzigzag_toInt (u : Word) :
    (unzigzag u).toInt = if u.toNat % 2 = 0 then (u.toNat : Int) / 2 else -(((u.toNat : Int) + 1) / 2) := by
  have hu := u.isLt
  rw [BitVec.toInt_eq_toNat_cond, unzigzag_toNat]
  by_cases heven : u.toNat % 2 = 0
  · rw [if_pos heven, if_pos heven, if_pos (by omega)]
    omega
  · rw [if_neg heven, if_neg heven, if_neg (by omega)]
    omega

/-- Every word is the fold of one: the unfold is an inverse on this side too. -/
@[simp] theorem zigzag_unzigzag (u : Word) : zigzag (unzigzag u) = u := by
  have hfold : ((zigzag (unzigzag u)).toNat : Int) = u.toNat := by
    rw [zigzag_toNat_eq_toInt, unzigzag_toInt]
    by_cases heven : u.toNat % 2 = 0
    · rw [if_pos heven, if_pos (by omega)]
      omega
    · rw [if_neg heven, if_neg (by omega)]
      omega
  exact BitVec.eq_of_toNat_eq (by exact_mod_cast hfold)

/-- Settles O27: the integer form is read off the number, and the unfold is an inverse on both sides. -/
theorem zigzagFoldsTheSign : Obligations.ZigzagFoldsTheSign :=
  ⟨fun _ => rfl, zigzag_toNat_eq_toInt,
    Function.bijective_iff_has_inverse.2 ⟨unzigzag, unzigzag_zigzag, zigzag_unzigzag⟩⟩

/-- Settles O28: the integer form is read off the number, and both inverse laws are lemmas. -/
theorem unzigzagUndoesTheFold : Obligations.UnzigzagUndoesTheFold :=
  ⟨fun u => ⟨rfl, unzigzag_toInt u, zigzag_unzigzag u⟩, unzigzag_zigzag⟩

/-! ### Widths (R206) -/

/-- Settles O29: the raw width is the largest width, and a width is at most `w` when `w` bits hold the residual. -/
theorem rawWidthIsTheLeastThatFits : Obligations.RawWidthIsTheLeastThatFits := by
  refine ⟨fun r w => width_le_iff, fun rs w => ?_⟩
  simp only [rawWidth_le_iff, width_le_iff]

/-! ### The choice of a code (R208 to R210) -/

theorem maxParam_eq (v : Variant) : maxParam v = if v = .rice then 14 else 30 := by cases v <;> rfl

/-- `k` is the least of the numbers up to `n` that cost least. -/
structure LeastBest (rs : List Word) (n k : Nat) : Prop where
  le      : k ≤ n
  minimal : ∀ j, j ≤ n → cost rs k ≤ cost rs j
  least   : ∀ j, j < k → cost rs k < cost rs j

/-- One parameter more: it is taken when it costs less than the best so far, and so less than all before it. -/
theorem LeastBest.succ {rs : List Word} {n k : Nat} (h : LeastBest rs n k) :
    LeastBest rs (n + 1) (cheaper rs k (n + 1)) := by
  unfold cheaper
  split
  · rename_i hlt
    refine ⟨Nat.le_refl _, fun j hj => ?_, fun j hj => hlt.trans_le (h.minimal j (by omega))⟩
    obtain rfl | hj := Nat.le_succ_iff_eq_or_le.1 hj
    · exact Nat.le_refl _
    · exact hlt.le.trans (h.minimal j hj)
  · rename_i hge
    refine ⟨h.le.trans (Nat.le_succ n), fun j hj => ?_, h.least⟩
    obtain rfl | hj := Nat.le_succ_iff_eq_or_le.1 hj
    · exact Nat.not_lt.1 hge
    · exact h.minimal j hj

theorem bestUpTo_leastBest (rs : List Word) (n : Nat) : LeastBest rs n (bestUpTo rs n) := by
  induction n with
  | zero =>
    refine ⟨Nat.le_refl 0, fun j hj => ?_, fun j hj => absurd hj (Nat.not_lt_zero j)⟩
    rw [Nat.le_zero.1 hj, bestUpTo]
  | succ n ih => exact ih.succ

theorem kbest_leastBest (rs : List Word) (v : Variant) : LeastBest rs (maxParam v) (kbest rs v) :=
  bestUpTo_leastBest rs (maxParam v)

/-- Settles O30: the invariant of the search, at the end of the variant's range. -/
theorem kbestIsTheLeastOfLeastCost : Obligations.KbestIsTheLeastOfLeastCost := by
  intro rs v
  rw [← maxParam_eq]
  obtain ⟨hle, hminimal, hleast⟩ := kbest_leastBest rs v
  exact ⟨hle, hminimal, hleast⟩

theorem kbest_nil (v : Variant) : kbest [] v = 0 := by
  by_contra h
  have hlt := (kbest_leastBest [] v).least 0 (Nat.pos_of_ne_zero h)
  exact absurd hlt (Nat.lt_irrefl 0)

theorem rawWidth_replicate_zero (n : Nat) : rawWidth (List.replicate n 0) = 0 := by
  refine Nat.le_zero.1 (rawWidth_le_iff.2 fun r hr => ?_)
  rw [List.eq_of_mem_replicate hr]
  rfl

/-- The Rice code of a 0 is its terminator and the parameter's bits. -/
theorem cost_replicate_zero (n k : Nat) : cost (List.replicate n 0) k = n * (1 + k) := by
  simp [cost, zigzag]

theorem chooseCode_of_cost_le {v : Variant} {rs : List Word} (h : cost rs (kbest rs v) ≤ rs.length * rawWidth rs) :
    chooseCode v rs = .rice (kbest rs v) :=
  if_neg fun hesc => absurd h (Nat.not_le.2 hesc.2)

theorem chooseCode_replicate_zero (v : Variant) {n : Nat} (hn : 1 ≤ n) :
    chooseCode v (List.replicate n 0) = .escaped 0 := by
  have hcost : 0 < cost (List.replicate n 0) (kbest (List.replicate n 0) v) := by
    rw [cost_replicate_zero]
    exact Nat.mul_pos hn (by omega)
  rw [chooseCode, rawWidth_replicate_zero]
  exact if_pos ⟨by omega, hcost⟩

/-- Settles O31: no bits cost nothing and are a tie, zeros cost at least a bit each against none, and a tie stays Rice. -/
theorem emptyZeroAndTiedPartitions : Obligations.EmptyZeroAndTiedPartitions := by
  refine fun v => ⟨⟨?_, ?_⟩, fun n hn => ⟨chooseCode_replicate_zero v hn, ?_⟩, fun rs h => chooseCode_of_cost_le h.le⟩
  · rw [chooseCode_of_cost_le (rs := []) (Nat.le_refl 0), kbest_nil]
  · rw [length_partBits_rice]
    rfl
  · rw [length_partBits_escaped, Nat.mul_zero]

/-! ### Reading one Rice code (R234) -/

/-- A quotient up to the limit leaves room for the remainder. -/
theorem quotient_in_range {k q rem : Nat} (hk : k ≤ 32) (hq : q ≤ (2 ^ 32 - 1) >>> k) (hrem : rem < 2 ^ k) :
    q * 2 ^ k + rem ≤ 2 ^ 32 - 1 := by
  have hpow : 2 ^ 32 = 2 ^ (32 - k) * 2 ^ k := by rw [← Nat.pow_add, Nat.sub_add_cancel hk]
  have hlt : q < 2 ^ (32 - k) := by
    rw [Nat.shiftRight_eq_div_pow] at hq
    refine hq.trans_lt ((Nat.div_lt_iff_lt_mul (Nat.two_pow_pos k)).2 ?_)
    omega
  have hle : (q + 1) * 2 ^ k ≤ 2 ^ (32 - k) * 2 ^ k := Nat.mul_le_mul_right _ hlt
  rw [Nat.add_one_mul] at hle
  omega

/-- A stream of zeros within the limit ends before the terminator. -/
theorem unaryRun_eof {limit q n : Nat} (h : q + n ≤ limit) :
    unaryRun limit q (List.replicate n false) = .error .eof := by
  induction n generalizing q with
  | zero => rfl
  | succ n ih =>
    rw [List.replicate_succ, unaryRun, if_neg (by omega)]
    exact ih (by omega)

section RiceRead

variable {k q pos : Nat} {tail : List Bool} (hq : q ≤ (2 ^ 32 - 1) >>> k)
include hq

theorem riceRead_of_remainder {rem : Nat} {rd : Reader} (h : readBits k ⟨pos + q + 1, tail⟩ = .ok (rem, rd)) :
    riceRead k ⟨pos, List.replicate q false ++ true :: tail⟩ =
      .ok (unzigzag (BitVec.ofNat 32 (q * 2 ^ k + rem)), rd) := by
  rw [← Nat.zero_add q] at hq
  simp only [riceRead, unaryRun_zeros hq, Nat.zero_add, h]

theorem riceRead_of_remainder_error {e : ReadFail} (h : readBits k ⟨pos + q + 1, tail⟩ = .error e) :
    riceRead k ⟨pos, List.replicate q false ++ true :: tail⟩ = .error e := by
  rw [← Nat.zero_add q] at hq
  simp only [riceRead, unaryRun_zeros hq, Nat.zero_add, h]

theorem riceRead_of_no_terminator : riceRead k ⟨pos, List.replicate q false⟩ = .error .eof := by
  rw [← Nat.zero_add q] at hq
  rw [riceRead, unaryRun_eof hq]

end RiceRead

/-- Settles O34: the code's two parts are read one after the other, and each can end early. -/
theorem riceReadBoundsTheQuotient : Obligations.RiceReadBoundsTheQuotient := by
  refine ⟨rfl, rfl, fun k pos q tail => ⟨fun hq rem hrem => ⟨fun hk => ?_, ?_⟩, fun hq hshort => ?_, fun hq => ?_, ?_⟩⟩
  · exact quotient_in_range (by omega) hq hrem
  · exact riceRead_of_remainder hq (readBits_bitsOf hrem _ _)
  · exact riceRead_of_remainder_error hq (readBits_error.2 ⟨rfl, hshort⟩)
  · exact riceRead_of_no_terminator hq
  · rintro rfl
    exact riceRead_overflow k pos tail

end Sys2Proof.Machine
end

section
/-! PROOFS, family 42_residual_codec, part 2: what ENCODE and DECODE do: the round trip, the failures of each, and the
free values a failed DECODE leaves. -/

namespace Sys2Proof.Machine

/-! ### The round trip (R238) -/

theorem encodeParts_legal (s : State) (v : Variant) (bs p o : Nat) : ∀ q ∈ s.encodeParts v bs p o, LegalPart v q := by
  intro q hq
  rw [encodeParts_eq, List.mem_map] at hq
  obtain ⟨i, -, rfl⟩ := hq
  exact legalPart_chooseCode v _

/-- The residuals of ENCODE's partitions are those of the residual RAM (R203). -/
theorem encodeParts_residuals (s : State) (v : Variant) {bs p o : Nat} (hd : bs % 2 ^ o = 0) (hp : p ≤ bs / 2 ^ o) :
    ((s.encodeParts v bs p o).map (fun q => q.2)).flatten = s.readResRun 0 (bs - p) := by
  rw [← partResiduals_flatten s hd hp, encodeParts_eq, List.map_map]
  rfl

theorem readRes_eq_of_readResRun_eq {s t : State} {n : Nat} (h : s.readResRun 0 n = t.readResRun 0 n) {j : Nat}
    (hj : j < n) : s.readRes j = t.readRes j :=
  List.map_inj_left.1 h j (List.mem_range'_1.2 (by omega))

/-- Settles O39: the appended bits are a legal section, of which DECODE gives back the codes and the residuals. -/
theorem decodeOfEncodeRestoresTheResiduals : Obligations.DecodeOfEncodeRestoresTheResiduals := by
  intro s t d sub sub' v bs p o bits tail hbs hpred hord ho hb hd hp hs hs' hexec hout hdbs hdpred hf hin
  rw [exec_encode_passes hbs hpred hord ho hs hb (geom_iff.2 ⟨hd, hp⟩), encodeCore_eq] at hexec
  cases hexec
  obtain rfl : sectionBits v o (s.encodeParts v bs p o) = bits := List.append_cancel_left hout
  obtain ⟨d', hdecode, hres, -, hcodes, -, hframe⟩ := decodeReadsEveryLegalSection d sub' v bs p o _ tail hdbs hdpred
    hf hb ho hs' hd hp (encodeParts_legal s v bs p o) (encodeParts_lengths s v bs p o) hin
  rw [encodeParts_residuals s v hd hp] at hres
  refine ⟨rfl, d', hdecode, congrArg State.code hframe, fun j hj => readRes_eq_of_readResRun_eq hres hj,
    fun i hi => ?_, congrArg State.inPos hframe, congrArg State.result hframe⟩
  have hi' : i < (s.encodeParts v bs p o).length := (length_encodeParts s v bs p o).symm ▸ hi
  obtain ⟨hparam, hraw⟩ := hcodes i hi'
  obtain ⟨hparam', hraw'⟩ := codes_writeCodes_inside v _ (writeHeader o v s) hi'
  exact ⟨hparam.trans hparam'.symm, hraw.trans hraw'.symm⟩

/-! ### The length of a section (R222) -/

theorem length_partBits_chooseCode (v : Variant) (rs : List Word) : (partBits v (chooseCode v rs) rs).length =
    if rawWidth rs ≤ 31 ∧ cost rs (kbest rs v) > rs.length * rawWidth rs
    then paramWidth v + 5 + rs.length * rawWidth rs else paramWidth v + cost rs (kbest rs v) := by
  rw [partBits_chooseCode, apply_ite List.length, length_partBits_escaped, length_partBits_rice]

theorem length_sectionBits_encodeParts (s : State) (v : Variant) (bs p o : Nat) :
    (sectionBits v o (s.encodeParts v bs p o)).length = 4 + ((List.range (2 ^ o)).map fun i =>
      (partBits v (chooseCode v (s.partResiduals bs p o i)) (s.partResiduals bs p o i)).length).sum := by
  simp [sectionBits, encodeParts_eq, Function.comp_def]

/-- Settles O36: the partitions' lengths add up, and no other command's way of ending writes the stream. -/
theorem encodeAloneAdvancesOutLen : Obligations.EncodeAloneAdvancesOutLen := by
  refine ⟨?_, fun s t i hi h => ?_⟩
  · intro s sub v bs p o P hbs hpred hord ho hs hb hd hp hP
    obtain rfl : P = s.partResiduals bs p o := funext hP
    refine ⟨_, _, exec_encode_passes hbs hpred hord ho hs hb (geom_iff.2 ⟨hd, hp⟩), rfl, ?_⟩
    simp only [← length_partBits_chooseCode]
    rw [Nat.add_assoc, ← length_sectionBits_encodeParts]
    exact List.length_append
  · obtain ⟨u, hu, ht⟩ := exec_ends h
    rw [ht]
    exact hu.outBits_kept hi

/-! ### ENCODE's checks (R221) -/

/-- ENCODE whose order, block size or geometry is refused, with the code of the first check that fails. -/
theorem exec_encode_fails {s : State} {sub : Bool} {v : Variant}
    (h : s.arg 2 > 15 ∨ (sub = true ∧ s.arg 2 > 8) ∨ s.arg 0 > 65535 ∨
      geom (s.arg 0) (s.arg 1) (s.arg 2) ≠ true) :
    exec (.encodeSection sub v) s = .next (codecFail
      (if s.arg 2 > 15 ∨ (sub = true ∧ s.arg 2 > 8) ∨ s.arg 0 > 65535 then .outOfRange else .invalidPartitionGeometry)
      (orderAdvisory (s.arg 2)) s) := by
  rw [exec, execEncodeSection]
  by_cases ho : s.arg 2 > 15
  · simp [ho]
  by_cases hs : sub = true ∧ s.arg 2 > 8
  · simp [hs]
  by_cases hb : s.arg 0 > 65535
  · simp [hb]
  have hg : geom (s.arg 0) (s.arg 1) (s.arg 2) = false := by simpa [ho, hs, hb] using h
  have hs' : ¬ (sub && decide (s.arg 2 > 8)) = true := by simpa using hs
  simp only [if_neg hs', hg, ho, hs, hb]
  rfl

theorem not_geom_iff {bs p o : Nat} : geom bs p o ≠ true ↔ bs % 2 ^ o ≠ 0 ∨ bs / 2 ^ o < p := by
  rw [Ne, geom_iff, not_and_or, Nat.not_le]

/-- Settles O37: a failing check is reached before any effect. -/
theorem failingEncodeWritesNothing : Obligations.FailingEncodeWritesNothing := by
  rintro s sub v _ _ _ rfl rfl rfl hfail
  rw [← not_geom_iff] at hfail
  exact (exec_encode_fails hfail).trans (congrArg _ (codecFail_eq_update (by split <;> decide) _ s))

/-! ### FHV_STATE (R240) -/

section Fhv

variable (sub : Bool) (v : Variant) {s t : State}

theorem exec_decode_rejected (hf : s.fhv = .rejected) :
    exec (.decodeSection sub v) s = .next (raise .illegalState 0 .clear s) := by
  rw [exec, execDecodeSection, if_pos hf]

/-- DECODE always completes. -/
theorem exec_decode_next (s : State) : ∃ t, exec (.decodeSection sub v) s = .next t := by
  rw [exec, execDecodeSection]
  split
  · exact ⟨_, rfl⟩
  · split
    · exact ⟨_, rfl⟩
    · split <;> exact ⟨_, rfl⟩

theorem decodeOrdered_code_ne_illegalState (o start : Nat) (rd : Reader) (s : State) :
    (decodeOrdered sub v o start rd s).code ≠ .illegalState := by
  obtain ⟨c, hc, he⟩ | ⟨-, he⟩ := decodeOrdered_cases sub v o start rd s
  · rw [he]
    obtain rfl | rfl := hc <;> nofun
  · rw [he]
    obtain ⟨e, -, he⟩ | ⟨parts, rd', -, he⟩ := decodeCore_cases v (s.arg 0) (s.arg 1) o start rd s
    · rw [he]
      exact e.code_ne_illegalState
    · rw [he]
      nofun

variable {sub v}

theorem exec_decode_code_ne_illegalState (hf : s.fhv ≠ .rejected) (h : exec (.decodeSection sub v) s = .next t) :
    t.code ≠ .illegalState := by
  obtain ⟨hr, -⟩ | ⟨-, -, rfl⟩ | ⟨-, -, -, rfl⟩ | ⟨o, rest, -, -, -, -, -, rfl⟩ := execDecodeSection_cases h
  · exact absurd hr hf
  · nofun
  · nofun
  · exact decodeOrdered_code_ne_illegalState _ _ _ _ _ _

/-- ENCODE neither looks at FHV_STATE nor writes it. -/
theorem exec_encode_fhv (s : State) (f : FhvState) : ∃ t, exec (.encodeSection sub v) s = .next t ∧
    exec (.encodeSection sub v) { s with fhv := f } = .next { t with fhv := f } := by
  by_cases h : s.arg 2 > 15 ∨ (sub = true ∧ s.arg 2 > 8) ∨ s.arg 0 > 65535 ∨
      geom (s.arg 0) (s.arg 1) (s.arg 2) ≠ true
  · exact ⟨_, exec_encode_fails h, exec_encode_fails (s := { s with fhv := f }) h⟩
  · obtain ⟨ho, hs, hb, hg⟩ : s.arg 2 ≤ 15 ∧ (sub = true → s.arg 2 ≤ 8) ∧ s.arg 0 ≤ 65535 ∧
        geom (s.arg 0) (s.arg 1) (s.arg 2) = true := by simpa [not_or] using h
    exact ⟨_, exec_encode_passes rfl rfl rfl ho hs hb hg,
      exec_encode_passes (s := { s with fhv := f }) rfl rfl rfl ho hs hb hg⟩

end Fhv

/-- Settles O40: the refusal is the first check, and no later way of ending has its code. -/
theorem decodeIsRefusedExactlyWhileRejected : Obligations.DecodeIsRefusedExactlyWhileRejected := by
  refine fun s sub v => ⟨fun hf => ?_, fun hf => ?_, exec_encode_fhv s⟩
  · rw [exec_decode_rejected sub v hf, raise_eq, complete_eq_update (by decide)]
    rfl
  · obtain ⟨t, h⟩ := exec_decode_next sub v s
    exact ⟨t, h, exec_decode_code_ne_illegalState hf h⟩

/-! ### A DECODE that fails inside the partitions (R236) -/

/-- A run of draws written from index 0 on, below its length and above it. -/
theorem read_writeRun_range {w : Nat} (d f : Nat → BitVec w) (n : Nat) (m : Memory w) (i : Nat) :
    Memory.read d (Memory.writeRun 0 ((List.range n).map f) m) i = if i < n then f i else Memory.read d m i := by
  split
  · rename_i h
    rw [read_writeRun_zero _ _ _ (by simpa using h), List.getElem_map, List.getElem_range]
  · rename_i h
    exact Memory.read_writeRun_outside _ _ _ _ (.inr (by simpa using h))

section DrawContents

variable (np nr : Nat) (s : State) (i : Nat)

theorem readParam_drawContents : (drawContents np nr s).readParam i =
    if i < np then Config.paramDraw s.draws i else s.readParam i := read_writeRun_range ..

theorem readRaw_drawContents : (drawContents np nr s).readRaw i =
    if i < np then Config.rawDraw s.draws i else s.readRaw i := read_writeRun_range ..

theorem readRes_drawContents : (drawContents np nr s).readRes i =
    if i < nr then Config.resDraw s.draws i else s.readRes i := read_writeRun_range ..

end DrawContents

/-- Behind a whole order field these codes are those of a read that failed inside the partitions. -/
theorem exec_decode_aborted {s t : State} {sub : Bool} {v : Variant} {o : Nat} {rest : List Bool} (ho : o ≤ 15)
    (hin : s.cfg.inBits.drop s.inPos = bitsOf 4 o ++ rest) (h : exec (.decodeSection sub v) s = .next t)
    (hc : t.code = .truncatedStream ∨ t.code = .parameterOutOfRange) :
    ∃ e : ReadFail, t = codecFail e.code (orderAdvisory o)
      (drawContents (2 ^ o) (s.arg 0 - s.arg 1) (drawInPos s.inPos (writeHeader o v s))) := by
  have hf : s.fhv ≠ .rejected := by
    intro hf
    rw [exec_decode_rejected sub v hf] at h
    cases h
    simp at hc
  have hb : s.arg 0 ≤ 65535 := by
    by_contra hb
    rw [exec_decode_blockSize hf (Nat.not_le.1 hb)] at h
    cases h
    simp at hc
  rw [exec_decode_order hf hb ho hin] at h
  cases h
  obtain ⟨c, hc', he⟩ | ⟨-, he⟩ := decodeOrdered_cases sub v o s.inPos ⟨s.inPos + 4, rest⟩ s
  · rw [he] at hc
    obtain rfl | rfl := hc' <;> simp at hc
  · rw [he] at hc ⊢
    obtain ⟨e, -, he⟩ | ⟨parts, rd', -, he⟩ :=
      decodeCore_cases v (s.arg 0) (s.arg 1) o s.inPos ⟨s.inPos + 4, rest⟩ s
    · exact ⟨e, he⟩
    · rw [he] at hc
      simp at hc

theorem ReadFail.code_ne_indexOutOfRange (e : ReadFail) : e.code ≠ .indexOutOfRange := by cases e <;> decide

/-- Settles O42: such a DECODE draws the cursor and then the contents, behind the header it wrote. -/
theorem failedDecodeLeavesFreeValues : Obligations.FailedDecodeLeavesFreeValues := by
  rintro s t sub v _ _ o rest rfl rfl ho hin h hc
  obtain ⟨e, rfl⟩ := exec_decode_aborted ho hin h hc
  have hpos : s.inPos ≤ s.cfg.inBits.length := by
    have hlen := congrArg List.length hin
    rw [List.length_drop, List.length_append, length_bitsOf] at hlen
    omega
  obtain ⟨hstart, hend⟩ := drawInPos_bounds (writeHeader o v s) hpos
  have hparam := readParam_drawContents (2 ^ o) (s.arg 0 - s.arg 1) (drawInPos s.inPos (writeHeader o v s))
  have hraw := readRaw_drawContents (2 ^ o) (s.arg 0 - s.arg 1) (drawInPos s.inPos (writeHeader o v s))
  have hres := readRes_drawContents (2 ^ o) (s.arg 0 - s.arg 1) (drawInPos s.inPos (writeHeader o v s))
  refine ⟨⟨s.draws + 1, Nat.le_succ _, Nat.lt_succ_self _,
      fun i hi => ⟨(hparam i).trans (if_pos hi), (hraw i).trans (if_pos hi)⟩,
      fun j hj => (hres j).trans (if_pos hj)⟩,
    fun i hi => ⟨(hparam i).trans (if_neg (Nat.not_lt.2 hi)), (hraw i).trans (if_neg (Nat.not_lt.2 hi))⟩,
    fun j hj => (hres j).trans (if_neg (Nat.not_lt.2 hj)), hstart, hend, ?_⟩
  rw [codecFail_eq_update e.code_ne_indexOutOfRange, orderAdvisory_eq ho]
  rfl

/-! ### A code that overflows inside a section (R234) -/

theorem lt_escapeSentinel_of_le_maxParam {v : Variant} {k : Nat} (h : k ≤ maxParam v) : k < escapeSentinel v :=
  h.trans_lt (by cases v <;> decide)

/-- Settles O59: the overflow fails its code, so its partition, so all the partitions behind the legal ones. -/
theorem overflowingCodeFailsDecode : Obligations.OverflowingCodeFailsDecode := by
  rintro s sub v _ _ o k n parts rs tail rfl rfl hf hb ho hs hd hp hlegal ⟨later, hlens⟩ hk hn hin
  rw [← maxParam_eq] at hk
  have hread := readParts_error parts hlegal
    (fun pos => readPart_overflow (lt_escapeSentinel_of_le_maxParam hk) hn pos tail) later (s.inPos + 4)
  rw [← hlens] at hread
  simp only [sectionBits, List.append_assoc] at hin
  have hexec := exec_decode_order (sub := sub) (v := v) hf hb ho hin
  rw [decodeOrdered_passes hs (geom_iff.2 ⟨hd, hp⟩)] at hexec
  exact ⟨_, hexec.trans (congrArg _ (decodeCore_error hread s)), rfl, rfl, rfl⟩

end Sys2Proof.Machine
end

section
/-! PROOFS, family 43_stream_frame: the two masks of failing fields as sums over the fields, and the end of each command
that its checks lead to, as one update of the state. -/

namespace Sys2Proof.Machine

/-! ### The masks of failing fields (R251, R257) -/

/-- Each further check of a mask weighs twice the one before it; `P` says what the first check asks. -/
theorem mul_failMask_cons {ok : Bool} {P : Prop} [Decidable P] (h : ok = true ↔ P) (weight : Nat) (rest : List Bool) :
    weight * failMask (ok :: rest) = (if P then 0 else weight) + 2 * weight * failMask rest := by
  simp only [failMask, h]
  split <;> ring

/-- A StreamInfo's rate is never 0 (R252). -/
theorem rateOk_false_iff {r : Nat} : rateOk r false = true ↔ 1 ≤ r ∧ r ≤ 655350 := by simp [rateOk_iff]

theorem siMask_eq (s : State) : siMask s =
    (if 1 ≤ s.arg 0 ∧ s.arg 0 ≤ 655350 then 0 else 1) + (if 1 ≤ s.arg 1 ∧ s.arg 1 ≤ 8 then 0 else 2) +
      (if 4 ≤ s.arg 2 ∧ s.arg 2 ≤ 32 then 0 else 4) + (if 16 ≤ s.arg 3 ∧ s.arg 3 ≤ 65535 then 0 else 8) +
      (if 16 ≤ s.arg 4 ∧ s.arg 4 ≤ 65535 then 0 else 16) + (if s.arg 3 > s.arg 4 then 32 else 0) := by
  have horder : decide (s.arg 3 ≤ s.arg 4) = true ↔ ¬ s.arg 3 > s.arg 4 := decide_eq_true_iff.trans not_lt.symm
  rw [siMask, ← Nat.one_mul (failMask _), mul_failMask_cons rateOk_false_iff, mul_failMask_cons chOk_iff,
    mul_failMask_cons bpsOk_iff, mul_failMask_cons bsFmt_iff, mul_failMask_cons bsFmt_iff, mul_failMask_cons horder,
    ite_not]
  simp only [failMask, Nat.mul_zero, Nat.add_zero, Nat.add_assoc]

theorem frameBlockOk_iff {s : State} {n : Nat} :
    frameBlockOk s n = true ↔ 16 ≤ n ∧ n ≤ 65535 ∧ (s.siValid = true → n ≤ s.si.maxBs.toNat) := by
  rw [frameBlockOk, Bool.and_eq_true, bsFmt_iff, and_assoc, Bool.or_eq_true, Bool.not_eq_true', decide_eq_true_iff,
    ← Bool.not_eq_true, ← imp_iff_not_or]

/-- A zero rate needs both Z and a loaded StreamInfo (R258). -/
theorem frameRateOk_iff {s : State} {r : Nat} {z : Bool} : frameRateOk s r z = true ↔
    (1 ≤ r ∧ r ≤ 655350) ∨ (r = 0 ∧ z = true ∧ s.siValid = true) := by
  by_cases hr : r = 0
  · cases z <;> simp [frameRateOk, rateOk_iff, hr]
  · simp [frameRateOk, rateOk_iff, hr]

theorem fhvMask_eq (z : Bool) (s : State) : fhvMask z s =
    (if 16 ≤ s.arg 0 ∧ s.arg 0 ≤ 65535 ∧ (s.siValid = true → s.arg 0 ≤ s.si.maxBs.toNat) then 0 else 1) +
      (if (1 ≤ s.arg 1 ∧ s.arg 1 ≤ 655350) ∨ (s.arg 1 = 0 ∧ z = true ∧ s.siValid = true) then 0 else 2) +
      (if 1 ≤ s.arg 2 ∧ s.arg 2 ≤ 8 then 0 else 4) + (if 4 ≤ s.arg 3 ∧ s.arg 3 ≤ 32 then 0 else 8) := by
  rw [fhvMask, ← Nat.one_mul (failMask _), mul_failMask_cons frameBlockOk_iff, mul_failMask_cons frameRateOk_iff,
    mul_failMask_cons chOk_iff, mul_failMask_cons bpsOk_iff]
  simp only [failMask, Nat.mul_zero, Nat.add_zero, Nat.add_assoc]

/-! ### StreamInfo (R251, R253) -/

theorem argTotal_eq (s : State) :
    s.argTotal = BitVec.ofNat 64 (s.args[6].toNat * 2 ^ 32 + s.args[5].toNat) := by
  rw [← toNat_append_add, BitVec.ofNat_toNat, BitVec.setWidth_eq]
  rfl

/-- Settles O44: a loaded record is refused first, then a mask that is not 0, the sum of the failing fields. -/
theorem siLoadChecksThenLoads : Obligations.SiLoadChecksThenLoads := by
  refine ⟨rfl, ?_⟩
  rintro s _ _ _ _ _ m rfl rfl rfl rfl rfl hm
  obtain rfl : siMask s = m := (siMask_eq s).trans hm.symm
  rw [exec, execSiLoad, ← argTotal_eq]
  refine ⟨fun hvalid => ?_, fun hvalid hfail => ?_, fun hvalid hpass => ?_⟩
  · rw [if_pos hvalid]
    exact congrArg _ (complete_eq_update (by decide) _ _ _)
  · rw [if_neg (Bool.eq_false_iff.1 hvalid), if_pos hfail]
    exact congrArg _ (complete_eq_update (by decide) _ _ _)
  · rw [if_neg (Bool.eq_false_iff.1 hvalid), if_neg (not_not.2 hpass)]
    exact congrArg _ (complete_eq_update (by decide) _ _ _)

/-- Settles O45: OK leaves all but the fields written. -/
theorem streamResetClearsTheStream : Obligations.StreamResetClearsTheStream :=
  ⟨rfl, fun _ => congrArg _ (complete_eq_update (by decide) _ _ _)⟩

/-! ### The frame header (R255, R257) -/

/-- Settles O46: OK leaves all but the field written. -/
theorem frameBeginRearmsTheValidator : Obligations.FrameBeginRearmsTheValidator :=
  ⟨rfl, fun _ => congrArg _ (complete_eq_update (by decide) _ _ _)⟩

/-- Settles O47: the state is checked first, and the mask, the sum of the failing fields, decides the next one. -/
theorem fhvValidateReportsEveryFailingField : Obligations.FhvValidateReportsEveryFailingField := by
  refine ⟨fun z => by cases z <;> rfl, ?_⟩
  rintro s z _ _ _ _ m rfl rfl rfl rfl hm
  obtain rfl : fhvMask z s = m := (fhvMask_eq z s).trans hm.symm
  rw [exec, execFhvValidate]
  refine ⟨fun hstate => ?_, fun hstate hfail => ?_, fun hstate hpass => ?_⟩
  · rw [if_pos hstate]
    exact congrArg _ (complete_eq_update (by decide) _ _ _)
  · rw [if_neg (not_not.2 hstate), if_pos hfail]
    exact congrArg _ (complete_eq_update (by decide) _ _ _)
  · rw [if_neg (not_not.2 hstate), if_neg (not_not.2 hpass)]
    exact congrArg _ (complete_eq_update (by decide) _ _ _)

end Sys2Proof.Machine
end

section
/-! PROOFS, family 44_subset_check: the mask of disqualifying fields as a sum over the fields, and FORMAT_ILLEGAL as the
failure of some full-format range. -/

namespace Sys2Proof.Machine

/-- The Subset adds rules to block size, LPC order and partition order alone (R283). -/
theorem subsetMask_eq (s : State) : subsetMask s =
    (if 16 ≤ s.arg 0 ∧ s.arg 0 ≤ 65535 ∧ s.arg 0 ∈ s.cfg.canonBlockSizes ∧ (s.arg 1 > 48000 ∨ s.arg 0 ≤ 4608) ∧
        (s.arg 1 ≤ 48000 ∨ s.arg 0 ≤ s.cfg.subsetMaxBsHighRate) then 0 else 1) +
      (if 1 ≤ s.arg 1 ∧ s.arg 1 ≤ 655350 then 0 else 2) + (if 1 ≤ s.arg 2 ∧ s.arg 2 ≤ 8 then 0 else 4) +
      (if 4 ≤ s.arg 3 ∧ s.arg 3 ≤ 32 then 0 else 8) +
      (if s.arg 4 ≤ 32 ∧ (s.arg 1 > 48000 ∨ s.arg 4 ≤ 12) then 0 else 16) + (if s.arg 5 ≤ 8 then 0 else 32) := by
  rw [subsetMask, ← Nat.one_mul (failMask _), mul_failMask_cons (bsSub_iff.trans and_assoc),
    mul_failMask_cons rateOk_false_iff, mul_failMask_cons chOk_iff, mul_failMask_cons bpsOk_iff,
    mul_failMask_cons lpcSub_iff, mul_failMask_cons poSub_iff]
  simp only [failMask, Nat.mul_zero, Nat.add_zero, Nat.add_assoc]

theorem formatIllegal_iff {s : State} : formatIllegal s = true ↔ ¬ ((16 ≤ s.arg 0 ∧ s.arg 0 ≤ 65535) ∧
    (1 ≤ s.arg 1 ∧ s.arg 1 ≤ 655350) ∧ (1 ≤ s.arg 2 ∧ s.arg 2 ≤ 8) ∧ (4 ≤ s.arg 3 ∧ s.arg 3 ≤ 32) ∧
    s.arg 4 ≤ 32 ∧ s.arg 5 ≤ 15) := by
  simp only [formatIllegal, Bool.or_eq_true, Bool.not_eq_true', ← Bool.not_eq_true, bsFmt_iff, rateOk_false_iff, chOk_iff,
    bpsOk_iff, lpcFmt_iff, poFmt_iff, not_and_or, or_assoc]

/-- Settles O48: the completion is always OK, and RESULT is the mask under the two flags read off from it and the
full-format ranges. -/
theorem subsetCheckClassifiesTheFields : Obligations.SubsetCheckClassifiesTheFields := by
  refine ⟨rfl, ?_⟩
  rintro s _ _ _ _ _ _ m rfl rfl rfl rfl rfl rfl hm
  obtain rfl : subsetMask s = m := (subsetMask_eq s).trans hm.symm
  refine congrArg _ ((complete_eq_update (by decide) _ _ _).trans ?_)
  simp only [subsetResult, formatIllegal_iff, ite_not]
  rfl

end Sys2Proof.Machine
end

section
/-! PROOFS, family 45_control: the completion of NOP is its whole effect. -/

namespace Sys2Proof.Machine

/-- Settles O49: OK sets no FATAL, so the completion is the update of the three outputs. -/
theorem nopWritesOnlyTheOutputs : Obligations.NopWritesOnlyTheOutputs :=
  ⟨rfl, fun s => congrArg _ (complete_eq_update (by decide) 0 .clear s)⟩

end Sys2Proof.Machine
end

section
/-! PROOFS, family 60_exceptions: no fault and no refusal is among the outcomes of a command, an access or an event, so
every step has a next state. -/

namespace Sys2Proof.Machine

/-! ### Every step completes (R306, R310, R321) -/

/-- The outcome is a next state: the machine neither stops with a fault nor refuses. -/
def Completes (x : Host.Outcome State Fault Refusal) : Prop := ∃ t, x = .next t

namespace Completes

theorem next (t : State) : Completes (.next t) := ⟨t, rfl⟩

theorem branch {c : Prop} [Decidable c] {x y : Host.Outcome State Fault Refusal} (hx : Completes x) (hy : Completes y) :
    Completes (if c then x else y) := by
  split
  · exact hx
  · exact hy

end Completes

/-- A command is a tree of checks, and each branch ends in a completion, failed or not (R303, R306). -/
theorem exec_completes (i : Instr) (s : State) : Completes (exec i s) := by
  cases i with
  | ensureCapacity => exact .branch (.next _) (.next _)
  | setHeader v => exact .branch (.next _) (.next _)
  | setPartition => exact .branch (.next _) (.branch (.next _) (.next _))
  | getPartition => exact .branch (.next _) (.next _)
  | encodeSection sub v => exact .branch (.next _) (.branch (.next _) (.branch (.next _) (.branch (.next _) (.next _))))
  | decodeSection sub v => exact exec_decode_next sub v s
  | siLoad => exact .branch (.next _) (.branch (.next _) (.next _))
  | fhvValidate z => exact .branch (.next _) (.branch (.next _) (.next _))
  | _ => exact .next _

theorem runCommand_completes (w : Word) (s : State) : Completes (runCommand w s) := by
  unfold runCommand
  split
  · exact exec_completes _ s
  · exact .next _

theorem writeReg_completes (r : RegName) (v : Word) (s : State) : Completes (writeReg r v s) := by
  cases r with
  | cmd => exact runCommand_completes v _
  | _ => exact .next _

/-- A bus error completes like any other access: the reply records it (R73, R307). -/
theorem hostAccess_completes (a : BusAccess) (s : State) : Completes (hostAccess a s) := by
  cases a with
  | read offset width =>
    rw [hostAccess]
    split <;> exact .next _
  | write offset width v =>
    rw [hostAccess]
    split
    · exact .next _
    · exact writeReg_completes _ v s

theorem hostEvent_completes (e : HostEvent) (s : State) : Completes (hostEvent e s) := by
  cases e with
  | access a => exact .branch (.next _) (hostAccess_completes a s)
  | assertReset => exact .next _
  | releaseReset => exact .next _

theorem step_idle {s : State} (h : s.pending = []) : step s = .next s := by rw [step, h]

theorem step_event {s : State} {e : HostEvent} {rest : List HostEvent} (h : s.pending = e :: rest) :
    step s = hostEvent e { s with pending := rest } := by rw [step, h]

theorem step_completes (s : State) : Completes (step s) := by
  cases h : s.pending with
  | nil => exact ⟨s, step_idle h⟩
  | cons e rest =>
    rw [step_event h]
    exact hostEvent_completes e _

/-- Settles O5: whatever the next event is, it completes, and with none the step is idle. -/
theorem everyStepCompletes : Obligations.EveryStepCompletes := fun s => ⟨step_completes s, step_idle⟩

/-! ### The status codes (R300) -/

/-- Settles O7: each number is the row of the code in `StatusCode.bits`. -/
theorem statusCodesHaveTheSpecNumbers : Obligations.StatusCodesHaveTheSpecNumbers :=
  ⟨rfl, rfl, rfl, rfl, rfl, rfl, rfl, rfl⟩

end Sys2Proof.Machine
end

section
/-! PROOFS, family 70_reset_and_hazards: an access made while reset is asserted clears the bus's answer and does nothing
else. -/

namespace Sys2Proof.Machine

/-- A reset that is asserted hides the window: neither the access's offset nor its data is looked at (R340). -/
theorem hostEvent_access_asserted {s : State} (a : BusAccess) (h : s.inReset = true) :
    hostEvent (.access a) s = .next (setReply .none s) := if_pos h

/-- Settles O58: the assertion is `assertReset` on the state that holds the later events, and an access while the input
is asserted leaves that state with no answer. -/
theorem assertedResetAnswersNoAccess : Obligations.AssertedResetAnswersNoAccess := by
  refine fun s rest => ⟨fun hassert => ?_, fun a haccess hreset => ?_⟩
  · exact step_event hassert
  · exact (step_event haccess).trans (hostEvent_access_asserted a hreset)

end Sys2Proof.Machine
end
